-- ==== Sys2Proof/Word.lean ====
section
/-! DEFINITION. The word of the BasicComputer CORE (spec/00_scope.md R7, R9, R10). -/

namespace Sys2Proof

/-- A word: 8 bits, stored as its unsigned pattern in [0,255] (R7, R10). Bit 7 is the most
significant one (R9). -/
abbrev Word := BitVec 8

end Sys2Proof
end

