-- ==== Sys2Proof/Config.lean ====
section
/-! DEFINITION. The two named parameters of the hardware (spec/00_scope.md R8) and the values the
spec states every rule at. They are fixed configuration, not state (spec/10_state.md R20). -/

namespace Sys2Proof

/-- `ISZ_ADVANCE`: the net PC advance of ISZ without and with the skip (R8, R112). -/
structure IszAdvance where
  noSkip : Nat
  skip : Nat
  deriving DecidableEq, Repr

/-- `RESERVED_OP_MODE`: how the reserved codes 0x44, 0x48, 0x50 execute (R8, R123 to R125). -/
inductive ReservedOpMode where
  | nop
  | refuse
  deriving DecidableEq, Repr

/-- The parameters a model takes as configuration arguments (R8). -/
structure Config where
  iszAdvance : IszAdvance
  reservedOpMode : ReservedOpMode
  deriving DecidableEq, Repr

/-- The defaults of R8, at which `exec` and `step` run: `ISZ_ADVANCE = (2, 3)` and
`RESERVED_OP_MODE = nop` (log entries 2 and 3). At any other value the machine is
`execAt`, `stepAt` and `coreAt` (Machine/Configured.lean). -/
def Config.default : Config :=
  { iszAdvance := { noSkip := 2, skip := 3 }, reservedOpMode := .nop }

end Sys2Proof
end

