-- ==== Sys2Proof/Machine/State.lean ====
section
/-! DEFINITION. The architectural state (spec/10_state.md R20 to R34), its reset value (R33), and the
reasons a step can answer no next state. -/

namespace Sys2Proof.Machine

/-- The run state of the Execution Engine (R29). -/
inductive Status where
  | running
  | halted
  | faulted
  deriving DecidableEq, Repr

/-- Which access raised OutOfRange (R30, R131). -/
inductive AccessKind where
  /-- The opcode word at PC. -/
  | fetch
  /-- The address field at PC+1. -/
  | operandFetch
  /-- The indirect pointer read at the address field. -/
  | pointerRead
  /-- The value read at the effective address. -/
  | dataRead
  /-- The STA write at the effective address. -/
  | dataWrite
  deriving DecidableEq, Repr

/-- The fault record of R30: the out-of-range address that was used, and the access that used it. -/
structure FaultRecord where
  addr : Nat
  kind : AccessKind
  deriving DecidableEq, Repr

/-- The 64-word Memory (R31, R40), as the list of its words that differ from `unlistedWord`, in
strictly rising address order (`Memory.wf`; log entry 10). -/
abbrev Memory := List Host.Cell

/-- The architectural state, exactly the fields of R20. -/
structure State where
  /-- `M[0..63]` (R31, R40). -/
  mem : Memory
  /-- The accumulator (R21). -/
  ac : Word
  /-- The program counter; it never wraps (R23, R26; log entry 5). -/
  pc : Nat
  /-- The instruction register (R27). -/
  ir : Word
  /-- The run state (R29). -/
  status : Status
  /-- The fault record; present only while Faulted (R30). -/
  fault : Option FaultRecord
  deriving DecidableEq, Repr

/-- The machine right after reset (R33, R150), with no image loaded: every word of memory then reads
as `unlistedWord` (log entry 1). -/
def State.reset : State :=
  { mem := [], ac := 0x00#8, pc := 0, ir := 0x00#8, status := .running, fault := none }

/-- A stop with no next state. It has no constructor: the one exception of the hardware, OutOfRange,
is taken into the state Faulted as R137 describes, and the spec leaves no behaviour of the core
stuck (spec/93_implementation_defined.md). -/
inductive Fault where
  deriving DecidableEq, Repr

/-- An instruction the model gives no meaning. -/
inductive Refusal where
  /-- `exec`'s arm of an instruction that has no meaning yet; safe. No arm is left so. -/
  | notModelled (mnemonic : String)
  /-- A reserved code (0x44, 0x48, 0x50) under `RESERVED_OP_MODE = refuse` (R8, R123 to R125), raised by
  `reservedOp` at that configuration only (`stepAt`), never at the default `exec` runs at; safe. -/
  | reservedOpcode (op : Word)
  deriving DecidableEq, Repr

end Sys2Proof.Machine
end

