-- ==== Sys2Proof/Machine/Alu.lean ====
section
/-! DEFINITION. The Arithmetic Unit (spec/40_cycle.md R80 to R86). -/

namespace Sys2Proof.Machine

/-- The signed reading of a word (R80): `w - 256` where bit 7 is 1, else `w`. -/
def toSigned (w : Word) : Int :=
  if w.getLsbD 7 then (w.toNat : Int) - 256 else (w.toNat : Int)

/-- Normalisation of an integer to a word, `x mod 256` (R81). -/
def toWord (x : Int) : Word := BitVec.ofNat 8 (x % 256).toNat

/-- `add` (R82): the sum of the signed readings, normalised; overflow wraps and records nothing (R86). -/
def add8 (a b : Word) : Word := toWord (toSigned a + toSigned b)

/-- `sub` (R83). -/
def sub8 (a b : Word) : Word := toWord (toSigned a - toSigned b)

/-- The bitwise AND of two patterns (R84). -/
def and8 (a b : Word) : Word := a &&& b

/-- The complement of all 8 bits (R85). -/
def not8 (a : Word) : Word := a ^^^ 0xFF#8

end Sys2Proof.Machine
end

