-- ==== Sys2Proof/Machine/Flags.lean ====
section
/-! DEFINITION. The hardware has no flags (spec/10_state.md R28). The one condition it tests is the zero
test of ISZ, which leaves no state behind (spec/42_address_ops.md R112). -/

namespace Sys2Proof.Machine

/-- The net PC advance of ISZ for the incremented value `r` (R112). -/
def iszNetAdvance (cfg : Config) (r : Word) : Nat :=
  if r = 0x00#8 then cfg.iszAdvance.skip else cfg.iszAdvance.noSkip

end Sys2Proof.Machine
end

