-- ==== Sys2Proof/Syntax.lean ====
section
/-! DEFINITION. The instructions of the BasicComputer CORE: one constructor for each row of
spec/opcode_table.json (spec/30_encoding.md R67). -/

namespace Sys2Proof

/-- An instruction. `p` is the address field, the whole 8-bit word after the opcode word (R63, R65);
a name ending in `I` is the indirect form (opcode bit 7 set). -/
inductive Instr where
  /-- AND, opcode 0x01 (R100). -/
  | and (p : Word)
  /-- AND indirect, opcode 0x81 (R100). -/
  | andI (p : Word)
  /-- ADD, opcode 0x02 (R101). -/
  | add (p : Word)
  /-- ADD indirect, opcode 0x82 (R101). -/
  | addI (p : Word)
  /-- SUB, opcode 0x03 (R102). -/
  | sub (p : Word)
  /-- SUB indirect, opcode 0x83 (R102). -/
  | subI (p : Word)
  /-- LDA, opcode 0x04 (R103). -/
  | lda (p : Word)
  /-- LDA indirect, opcode 0x84 (R103). -/
  | ldaI (p : Word)
  /-- STA, opcode 0x08 (R110). -/
  | sta (p : Word)
  /-- STA indirect, opcode 0x88 (R110). -/
  | staI (p : Word)
  /-- BUN, opcode 0x10 (R111). -/
  | bun (p : Word)
  /-- BUN indirect, opcode 0x90 (R111). -/
  | bunI (p : Word)
  /-- ISZ, opcode 0x20 (R112). -/
  | isz (p : Word)
  /-- ISZ indirect, opcode 0xA0 (R112). -/
  | iszI (p : Word)
  /-- CLA, opcode 0x41 (R120). -/
  | cla
  /-- CMA, opcode 0x42 (R121). -/
  | cma
  /-- HLT, opcode 0x60 (R122). -/
  | hlt
  /-- ASL, opcode 0x44, reserved (R123). -/
  | asl
  /-- ASR, opcode 0x48, reserved (R124). -/
  | asr
  /-- INC, opcode 0x50, reserved (R125). -/
  | inc
  /-- Any of the 236 undefined opcode values, kept as `op` (R70, R126). -/
  | undef (op : Word)
  deriving DecidableEq, Repr

end Sys2Proof
end

