-- ==== Sys2Proof/WellFormed.lean ====
section
/-! DEFINITION. Which terms of `Instr` an encoding stands for (spec/30_encoding.md R65, R67, R70). -/

namespace Sys2Proof

/-- The 14 operand-group codes: the two-word instructions (R64, R67). -/
def operandCodes : List Word :=
  [0x01#8, 0x02#8, 0x03#8, 0x04#8, 0x08#8, 0x10#8, 0x20#8,
   0x81#8, 0x82#8, 0x83#8, 0x84#8, 0x88#8, 0x90#8, 0xA0#8]

/-- The 20 codes of the opcode map: the operand group, CLA, CMA, HLT and the three reserved codes
(R67, R70). -/
def definedCodes : List Word :=
  operandCodes ++ [0x41#8, 0x42#8, 0x60#8, 0x44#8, 0x48#8, 0x50#8]

/-- Every address field 0x00..0xFF is encodable (R65, R73), so the one thing to check is that an
undefined opcode is none of the 20 defined codes (R70). -/
def Instr.wf : Instr → Bool
  | .and _ => true
  | .andI _ => true
  | .add _ => true
  | .addI _ => true
  | .sub _ => true
  | .subI _ => true
  | .lda _ => true
  | .ldaI _ => true
  | .sta _ => true
  | .staI _ => true
  | .bun _ => true
  | .bunI _ => true
  | .isz _ => true
  | .iszI _ => true
  | .cla => true
  | .cma => true
  | .hlt => true
  | .asl => true
  | .asr => true
  | .inc => true
  | .undef op => !definedCodes.contains op

end Sys2Proof
end

