-- ==== Sys2Proof/Decode.lean ====
section
/-! DEFINITION. The decoder, a function from words to an instruction or a named rejection, and the
encoder (spec/30_encoding.md R60 to R72, spec/40_cycle.md R89). -/

namespace Sys2Proof

/-- The seven operations that take an address field (R67, groups value- and address-consuming). -/
inductive OperandOp where
  | and | add | sub | lda | sta | bun | isz
  deriving DecidableEq, Repr

/-- What the opcode word alone says (R89): an operation that takes an address field, with its
indirect flag, or an instruction that is complete in one word. -/
inductive Opcode where
  | operand (op : OperandOp) (indirect : Bool)
  | oneWord (i : Instr)
  deriving DecidableEq, Repr

/-- Why a list of words is no instruction. No opcode value is illegal (R71): only words that are
missing are rejected. -/
inductive DecodeError where
  /-- There is no opcode word. Safe: nothing is decoded. -/
  | noOpcodeWord
  /-- The opcode takes an address field and there is none. Safe: nothing is decoded. -/
  | noAddressField (op : Word)
  deriving DecidableEq, Repr

/-- The decode function of R89, an exact comparison of all 8 bits (R66). The flag I is bit 7 of the
opcode word and is read for the operand group only (R61). -/
def decodeOpcode (ir : Word) : Opcode :=
  if ir = 0x01#8 ∨ ir = 0x81#8 then .operand .and (ir.getLsbD 7)
  else if ir = 0x02#8 ∨ ir = 0x82#8 then .operand .add (ir.getLsbD 7)
  else if ir = 0x03#8 ∨ ir = 0x83#8 then .operand .sub (ir.getLsbD 7)
  else if ir = 0x04#8 ∨ ir = 0x84#8 then .operand .lda (ir.getLsbD 7)
  else if ir = 0x08#8 ∨ ir = 0x88#8 then .operand .sta (ir.getLsbD 7)
  else if ir = 0x10#8 ∨ ir = 0x90#8 then .operand .bun (ir.getLsbD 7)
  else if ir = 0x20#8 ∨ ir = 0xA0#8 then .operand .isz (ir.getLsbD 7)
  else if ir = 0x41#8 then .oneWord .cla
  else if ir = 0x42#8 then .oneWord .cma
  else if ir = 0x60#8 then .oneWord .hlt
  else if ir = 0x44#8 then .oneWord .asl
  else if ir = 0x48#8 then .oneWord .asr
  else if ir = 0x50#8 then .oneWord .inc
  else .oneWord (.undef ir)

/-- The two-word instruction of an operation, its indirect flag and its address field (R63). -/
def operandInstr : OperandOp → Bool → Word → Instr
  | .and, false, p => .and p
  | .and, true, p => .andI p
  | .add, false, p => .add p
  | .add, true, p => .addI p
  | .sub, false, p => .sub p
  | .sub, true, p => .subI p
  | .lda, false, p => .lda p
  | .lda, true, p => .ldaI p
  | .sta, false, p => .sta p
  | .sta, true, p => .staI p
  | .bun, false, p => .bun p
  | .bun, true, p => .bunI p
  | .isz, false, p => .isz p
  | .isz, true, p => .iszI p

/-- The instruction at the head of a list of words, and the words after it. The address field is
read only where the opcode takes one (R64). -/
def decode : List Word → Except DecodeError (Instr × List Word)
  | [] => .error .noOpcodeWord
  | op :: rest =>
    match decodeOpcode op with
    | .oneWord i => .ok (i, rest)
    | .operand o indirect =>
      match rest with
      | [] => .error (.noAddressField op)
      | p :: rest' => .ok (operandInstr o indirect p, rest')

/-- The length function of R64, on the opcode word alone. -/
def instrLength (op : Word) : Nat :=
  if op ∈ operandCodes then 2 else 1

/-- The words of an instruction, from the tables of R62, R63 and R67; the opcode word is at the
lower address (R46). -/
def encode : Instr → List Word
  | .and p => [0x01#8, p]
  | .andI p => [0x81#8, p]
  | .add p => [0x02#8, p]
  | .addI p => [0x82#8, p]
  | .sub p => [0x03#8, p]
  | .subI p => [0x83#8, p]
  | .lda p => [0x04#8, p]
  | .ldaI p => [0x84#8, p]
  | .sta p => [0x08#8, p]
  | .staI p => [0x88#8, p]
  | .bun p => [0x10#8, p]
  | .bunI p => [0x90#8, p]
  | .isz p => [0x20#8, p]
  | .iszI p => [0xA0#8, p]
  | .cla => [0x41#8]
  | .cma => [0x42#8]
  | .hlt => [0x60#8]
  | .asl => [0x44#8]
  | .asr => [0x48#8]
  | .inc => [0x50#8]
  | .undef op => [op]

/-- Word `k` (0 the opcode word, 1 the word after it) of the instruction whose bits are the low `nbits`
bits of `w` and zeros above them, numbered from bit 0 of the opcode word. -/
def tableWord (k nbits w : Nat) : Word := BitVec.ofNat 8 (w % 2 ^ nbits / 256 ^ k)

/-- The decoder on an instruction numbered as spec/opcode_table.json numbers its bits; two words are
the longest instruction (R64). -/
def decodeTableWord (nbits w : Nat) : Option Instr :=
  match decode [tableWord 0 nbits w, tableWord 1 nbits w] with
  | .ok (i, _) => some i
  | .error _ => none

end Sys2Proof
end

