-- ==== Sys2Proof/Machine/Ops.lean ====
section
/-! DEFINITION. The operations every instruction shares: memory words, the range-checked accesses,
raising OutOfRange, and fetching (spec/20_memory.md R40 to R58, spec/60_exceptions.md R130 to R138,
spec/40_cycle.md R92). -/

namespace Sys2Proof.Machine

/-- What a word of memory that nothing has loaded or written reads as (DESIGN CHOICE, log entry 1). -/
def unlistedWord : Word := 0x00#8

/-- The addresses that exist are 0..63 (R40, R49). -/
def validAddress (a : Nat) : Bool := decide (a < 64)

/-- The word `m` holds at `a`. -/
def Memory.read : Memory → Nat → Word
  | [], _ => unlistedWord
  | c :: m, a => if c.1 = a then c.2 else Memory.read m a

/-- Put the cell `(a, v)` before the first cell of a higher address. -/
def Memory.insert (a : Nat) (v : Word) : Memory → Memory
  | [] => [(a, v)]
  | c :: m => if a < c.1 then (a, v) :: c :: m else c :: Memory.insert a v m

/-- Take the cells of address `a` out. -/
def Memory.erase (a : Nat) (m : Memory) : Memory := m.filter (fun c => c.1 != a)

/-- `m` with `v` at `a`; a word equal to `unlistedWord` is not listed. -/
def Memory.write (m : Memory) (a : Nat) (v : Word) : Memory :=
  if v = unlistedWord then Memory.erase a m else Memory.insert a v (Memory.erase a m)

/-- `m` with `v` at `a` where `a` exists. -/
def Memory.place (m : Memory) (a : Nat) (v : Word) : Memory :=
  if validAddress a then m.write a v else m

/-- The cells of `m` have existing addresses, at least `lo` and strictly rising, and none is equal to
`unlistedWord`. -/
def Memory.wfFrom (lo : Nat) : Memory → Bool
  | [] => true
  | c :: m => decide (lo ≤ c.1) && validAddress c.1 && decide (c.2 ≠ unlistedWord) && Memory.wfFrom (c.1 + 1) m

/-- The canonical form of memory. -/
def Memory.wf (m : Memory) : Bool := Memory.wfFrom 0 m

/-- The memory that holds the words of `ws` at the addresses `a`, `a+1`, … -/
def Memory.ofWords : Nat → List Word → Memory
  | _, [] => []
  | a, w :: ws => if w = unlistedWord then Memory.ofWords (a + 1) ws else (a, w) :: Memory.ofWords (a + 1) ws

/-- All 64 words of memory, word i at position i. -/
def Memory.toWords (m : Memory) : List Word := (List.range 64).map (Memory.read m)

/-- `MemRead(addr, 1)` of R41: one word, or OutOfRange with the kind the caller names. -/
def memRead (addr : Nat) (kind : AccessKind) (s : State) : Except FaultRecord Word :=
  if validAddress addr then .ok (s.mem.read addr) else .error { addr := addr, kind := kind }

/-- `MemWrite(addr, 1, v)` of R42: one word, or OutOfRange and nothing written. `v` is an 8-bit pattern
already, so R42's normalisation changes nothing. -/
def memWrite (addr : Nat) (v : Word) (s : State) : Except FaultRecord State :=
  if validAddress addr then .ok { s with mem := s.mem.write addr v }
  else .error { addr := addr, kind := .dataWrite }

/-- Taking OutOfRange (R137): the run state becomes Faulted and the record is kept; PC, AC, IR and
memory stay. There is no handler and no return (R137, R138). It is a next state, not a stop of the model
(log entry 4). -/
def takeOutOfRange (e : FaultRecord) (s : State) : State :=
  { s with status := .faulted, fault := some e }

/-- `raise OutOfRange(addr, kind)` of R11: the cycle ends in the state of `takeOutOfRange`. -/
def raise (e : FaultRecord) (s : State) : Host.Outcome State Fault Refusal :=
  .next (takeOutOfRange e s)

/-- The fetch part of a cycle (R92, R87): the opcode word at PC goes into IR, then the address field
at PC+1 is read where the opcode takes one. The answer is the instruction and the state its
operation runs in, or the state of an OutOfRange: a failed opcode fetch leaves IR alone, a failed
address-field fetch finds it written (R27, R137). -/
def fetch (s : State) : Except State (Instr × State) :=
  match memRead s.pc .fetch s with
  | .error e => .error (takeOutOfRange e s)
  | .ok op =>
    match decodeOpcode op with
    | .oneWord i => .ok (i, { s with ir := op })
    | .operand o indirect =>
      match memRead (s.pc + 1) .operandFetch s with
      | .error e => .error (takeOutOfRange e { s with ir := op })
      | .ok p => .ok (operandInstr o indirect p, { s with ir := op })

/-- `Step()` of R92, with `run` the operation of an instruction after its fetch. It is enabled only when
the core is Running; in Halted and Faulted the core does nothing, and the state stays as it is (R91;
log entry 6). -/
def cycle (run : Instr → State → Host.Outcome State Fault Refusal) (s : State) :
    Host.Outcome State Fault Refusal :=
  match s.status with
  | .halted => .next s
  | .faulted => .next s
  | .running =>
    match fetch s with
    | .error t => .next t
    | .ok (i, t) => run i t

end Sys2Proof.Machine
end

