-- ==== Sys2Proof/Machine/Operands.lean ====
section
/-! DEFINITION. The Addressing Resolver: the two operand forms (spec/40_cycle.md R87, R88). -/

namespace Sys2Proof.Machine

/-- Direct (I = 0) or indirect (I = 1) addressing (R65). -/
inductive AddrMode where
  | direct
  | indirect
  deriving DecidableEq, Repr

/-- `EA(I)` of R87 once the address field `p` is read: `p` itself, or the word it points at (one
dereference, kind PointerRead). The effective address is not range checked here. -/
def effectiveAddress (mode : AddrMode) (p : Word) (s : State) : Except FaultRecord Word :=
  match mode with
  | .direct => .ok p
  | .indirect => memRead p.toNat .pointerRead s

/-- The operand value of a value-consuming instruction (R88): the word at the effective address. -/
def operandValue (mode : AddrMode) (p : Word) (s : State) : Except FaultRecord Word :=
  match effectiveAddress mode p s with
  | .error e => .error e
  | .ok ea => memRead ea.toNat .dataRead s

end Sys2Proof.Machine
end

