-- ==== Sys2Proof/Machine/AddressOps.lean ====
section
/-! DEFINITION. The address-consuming instructions STA, BUN, ISZ (spec/42_address_ops.md R110 to R112). -/

namespace Sys2Proof.Machine

/-- STA after its fetch (R110): AC goes to the effective address, which is not read. -/
def storeOp (mode : AddrMode) (p : Word) (s : State) : Host.Outcome State Fault Refusal :=
  match effectiveAddress mode p s with
  | .error e => raise e s
  | .ok ea =>
    match memWrite ea.toNat s.ac s with
    | .error e => raise e s
    | .ok t => .next { t with pc := s.pc + 2 }

/-- BUN after its fetch (R111), by its net effect (R93): the target is not checked. -/
def branchOp (mode : AddrMode) (p : Word) (s : State) : Host.Outcome State Fault Refusal :=
  match effectiveAddress mode p s with
  | .error e => raise e s
  | .ok ea => .next { s with pc := ea.toNat }

/-- ISZ after its fetch (R112), at any value of `ISZ_ADVANCE`: the word at the effective address is
incremented by the Arithmetic Unit's `add` and written back, and PC advances by the skip or the
no-skip amount. -/
def incrementSkipOp (cfg : Config) (mode : AddrMode) (p : Word) (s : State) :
    Host.Outcome State Fault Refusal :=
  match effectiveAddress mode p s with
  | .error e => raise e s
  | .ok ea =>
    match memRead ea.toNat .dataRead s with
    | .error e => raise e s
    | .ok v =>
      match memWrite ea.toNat (add8 v 0x01#8) s with
      | .error e => raise e s
      | .ok t => .next { t with pc := s.pc + iszNetAdvance cfg (add8 v 0x01#8) }

/-- STA direct (R110). -/
def execSta (p : Word) (s : State) : Host.Outcome State Fault Refusal := storeOp .direct p s

/-- STA indirect (R110). -/
def execStaI (p : Word) (s : State) : Host.Outcome State Fault Refusal := storeOp .indirect p s

/-- BUN direct (R111). -/
def execBun (p : Word) (s : State) : Host.Outcome State Fault Refusal := branchOp .direct p s

/-- BUN indirect (R111). -/
def execBunI (p : Word) (s : State) : Host.Outcome State Fault Refusal := branchOp .indirect p s

/-- ISZ direct (R112), at any `ISZ_ADVANCE` (R8). -/
def execIszAt (cfg : Config) (p : Word) (s : State) : Host.Outcome State Fault Refusal :=
  incrementSkipOp cfg .direct p s

/-- ISZ indirect (R112), at any `ISZ_ADVANCE` (R8). -/
def execIszIAt (cfg : Config) (p : Word) (s : State) : Host.Outcome State Fault Refusal :=
  incrementSkipOp cfg .indirect p s

/-- ISZ direct (R112), at the default `ISZ_ADVANCE` (log entry 2). -/
def execIsz (p : Word) (s : State) : Host.Outcome State Fault Refusal := execIszAt Config.default p s

/-- ISZ indirect (R112), at the default `ISZ_ADVANCE` (log entry 2). -/
def execIszI (p : Word) (s : State) : Host.Outcome State Fault Refusal := execIszIAt Config.default p s

end Sys2Proof.Machine
end

