-- ==== Sys2Proof/Machine/NoOperandOps.lean ====
section
/-! DEFINITION. The one-word instructions CLA, CMA, HLT, the reserved ASL, ASR, INC, and the undefined
opcodes (spec/43_no_operand_ops.md R120 to R126). -/

namespace Sys2Proof.Machine

/-- A one-word instruction that changes nothing but PC (R126). -/
def noOp (s : State) : Host.Outcome State Fault Refusal := .next { s with pc := s.pc + 1 }

/-- A reserved code at any value of `RESERVED_OP_MODE` (R8, R123 to R125): a no-op, or no meaning. -/
def reservedOp (cfg : Config) (op : Word) (s : State) : Host.Outcome State Fault Refusal :=
  match cfg.reservedOpMode with
  | .nop => noOp s
  | .refuse => .refused (.reservedOpcode op)

/-- CLA (R120). -/
def execCla (s : State) : Host.Outcome State Fault Refusal := .next { s with ac := 0x00#8, pc := s.pc + 1 }

/-- CMA (R121). -/
def execCma (s : State) : Host.Outcome State Fault Refusal := .next { s with ac := not8 s.ac, pc := s.pc + 1 }

/-- HLT (R122): PC is not advanced. -/
def execHlt (s : State) : Host.Outcome State Fault Refusal := .next { s with status := .halted }

/-- ASL, reserved (R123), at any `RESERVED_OP_MODE` (R8). -/
def execAslAt (cfg : Config) (s : State) : Host.Outcome State Fault Refusal := reservedOp cfg 0x44#8 s

/-- ASL, reserved (R123), at the default `RESERVED_OP_MODE` (log entry 3). -/
def execAsl (s : State) : Host.Outcome State Fault Refusal := execAslAt Config.default s

/-- ASR, reserved (R124), at any `RESERVED_OP_MODE` (R8). -/
def execAsrAt (cfg : Config) (s : State) : Host.Outcome State Fault Refusal := reservedOp cfg 0x48#8 s

/-- ASR, reserved (R124), at the default `RESERVED_OP_MODE` (log entry 3). -/
def execAsr (s : State) : Host.Outcome State Fault Refusal := execAsrAt Config.default s

/-- INC, reserved (R125), at any `RESERVED_OP_MODE` (R8). -/
def execIncAt (cfg : Config) (s : State) : Host.Outcome State Fault Refusal := reservedOp cfg 0x50#8 s

/-- INC, reserved (R125), at the default `RESERVED_OP_MODE` (log entry 3). -/
def execInc (s : State) : Host.Outcome State Fault Refusal := execIncAt Config.default s

/-- An undefined opcode (R126): a no-op whatever its value. -/
def execUndef (_op : Word) (s : State) : Host.Outcome State Fault Refusal := noOp s

end Sys2Proof.Machine
end

