-- ==== Sys2Proof/Machine/ValueOps.lean ====
section
/-! DEFINITION. The value-consuming instructions AND, ADD, SUB, LDA (spec/41_value_ops.md R100 to R103). -/

namespace Sys2Proof.Machine

/-- The cycle of a value-consuming instruction after its fetch: AC becomes `f AC v` for the operand
value `v` and PC advances by 2, or the operand's OutOfRange is raised (R100 to R103). -/
def valueOp (f : Word → Word → Word) (mode : AddrMode) (p : Word) (s : State) :
    Host.Outcome State Fault Refusal :=
  match operandValue mode p s with
  | .error e => raise e s
  | .ok v => .next { s with ac := f s.ac v, pc := s.pc + 2 }

/-- AND direct (R100). -/
def execAnd (p : Word) (s : State) : Host.Outcome State Fault Refusal := valueOp and8 .direct p s

/-- AND indirect (R100). -/
def execAndI (p : Word) (s : State) : Host.Outcome State Fault Refusal := valueOp and8 .indirect p s

/-- ADD direct (R101). -/
def execAdd (p : Word) (s : State) : Host.Outcome State Fault Refusal := valueOp add8 .direct p s

/-- ADD indirect (R101). -/
def execAddI (p : Word) (s : State) : Host.Outcome State Fault Refusal := valueOp add8 .indirect p s

/-- SUB direct (R102): AC is the minuend. -/
def execSub (p : Word) (s : State) : Host.Outcome State Fault Refusal := valueOp sub8 .direct p s

/-- SUB indirect (R102): AC is the minuend. -/
def execSubI (p : Word) (s : State) : Host.Outcome State Fault Refusal := valueOp sub8 .indirect p s

/-- LDA direct (R103): the old AC is not read. -/
def execLda (p : Word) (s : State) : Host.Outcome State Fault Refusal := valueOp (fun _ v => v) .direct p s

/-- LDA indirect (R103): the old AC is not read. -/
def execLdaI (p : Word) (s : State) : Host.Outcome State Fault Refusal := valueOp (fun _ v => v) .indirect p s

end Sys2Proof.Machine
end

