-- ==== Sys2Proof/Machine/Dispatch.lean ====
section
/-! DEFINITION. The dispatcher: the case of spec/40_cycle.md R92, one arm per instruction. -/

namespace Sys2Proof.Machine

/-- The operation of an instruction in a state whose fetch is done; the run state is `step`'s to check
(log entry 11). -/
def exec (i : Instr) (s : State) : Host.Outcome State Fault Refusal :=
  match i with
  | .and p => Sys2Proof.Machine.execAnd p s
  | .andI p => Sys2Proof.Machine.execAndI p s
  | .add p => Sys2Proof.Machine.execAdd p s
  | .addI p => Sys2Proof.Machine.execAddI p s
  | .sub p => Sys2Proof.Machine.execSub p s
  | .subI p => Sys2Proof.Machine.execSubI p s
  | .lda p => Sys2Proof.Machine.execLda p s
  | .ldaI p => Sys2Proof.Machine.execLdaI p s
  | .sta p => Sys2Proof.Machine.execSta p s
  | .staI p => Sys2Proof.Machine.execStaI p s
  | .bun p => Sys2Proof.Machine.execBun p s
  | .bunI p => Sys2Proof.Machine.execBunI p s
  | .isz p => Sys2Proof.Machine.execIsz p s
  | .iszI p => Sys2Proof.Machine.execIszI p s
  | .cla => Sys2Proof.Machine.execCla s
  | .cma => Sys2Proof.Machine.execCma s
  | .hlt => Sys2Proof.Machine.execHlt s
  | .asl => Sys2Proof.Machine.execAsl s
  | .asr => Sys2Proof.Machine.execAsr s
  | .inc => Sys2Proof.Machine.execInc s
  | .undef op => Sys2Proof.Machine.execUndef op s

end Sys2Proof.Machine
end

