-- ==== Sys2Proof/Machine/Step.lean ====
section
/-! DEFINITION. One step: one full fetch-decode-execute cycle (spec/40_cycle.md R91, R92). -/

namespace Sys2Proof.Machine

/-- One step at the default parameters of R8: the cycle of R92 whose operations are those of `exec`. -/
def step (s : State) : Host.Outcome State Fault Refusal := cycle exec s

/-- `s` with the instruction of bits `w` stored where the next fetch reads: its opcode word at PC, its
second word at PC+1. A core that is not Running fetches nothing, so such a core is also made to run;
nothing else changes (log entry 9). -/
def State.withFetchWord (s : State) (nbits w : Nat) : State :=
  let m := (s.mem.place s.pc (tableWord 0 nbits w)).place (s.pc + 1) (tableWord 1 nbits w)
  match s.status with
  | .running => { s with mem := m }
  | .halted => { s with mem := m, status := .running, fault := none }
  | .faulted => { s with mem := m, status := .running, fault := none }

end Sys2Proof.Machine
end

