-- ==== Sys2Proof/Machine/Assemble.lean ====
section
/-! DEFINITION. The assembly notation of spec/30_encoding.md R73 and R75 as data: a line is an item with
an optional address, and a program is placed word by word at increasing addresses. It is the spec's
notation for programs, no part of a step. -/

namespace Sys2Proof.Machine

/-- An item of R73: an instruction, or `.word value`. R73 has no mnemonic for an undefined opcode; here one is
an item too and assembles to its one word, as `.word` would (DESIGN CHOICE, log entry 8). -/
inductive AsmItem where
  | instr (i : Instr)
  | word (v : Word)
  deriving DecidableEq, Repr

/-- A line of R73: `[addr ':'] item`. -/
structure AsmLine where
  addr : Option Nat
  item : AsmItem
  deriving DecidableEq, Repr

/-- The words an item assembles to (R73). -/
def AsmItem.words : AsmItem → List Word
  | .instr i => encode i
  | .word v => [v]

/-- Put words at increasing addresses from `a` (R46, R75). DESIGN CHOICE (log entry 8): none where a word would
lie past address 63, as for a two-word item at 0x3F, which R73's grammar allows; the spec does not say what
such an item assembles to. -/
def placeWords : Nat → List Word → Memory → Option Memory
  | _, [], m => some m
  | a, w :: ws, m => if validAddress a then placeWords (a + 1) ws (m.write a w) else none

/-- Place the lines in order. A line with no address comes right after the item before it, the first
at 0; where two items cover one address the later one stands; one item that runs past address 63 leaves the
whole program without an image (DESIGN CHOICE, log entry 8). -/
def assembleFrom : Nat → List AsmLine → Memory → Option Memory
  | _, [], m => some m
  | here, l :: ls, m =>
    match placeWords (l.addr.getD here) l.item.words m with
    | none => none
    | some m' => assembleFrom (l.addr.getD here + l.item.words.length) ls m'

/-- The 64-word image of a program; words no item covers are 0x00 (R75; R56). -/
def assemble (lines : List AsmLine) : Option (List Word) :=
  (assembleFrom 0 lines []).map Memory.toWords

end Sys2Proof.Machine
end

