-- ==== Sys2Proof/Machine/Configured.lean ====
section
/-! DEFINITION. The machine at any value of the two named parameters (spec/00_scope.md R8: "a model takes
them as configuration arguments"). `exec`, `step` and `Sys2Proof.core` are this machine at
`Config.default`. -/

namespace Sys2Proof.Machine

/-- The operation of an instruction at the configuration `cfg`: ISZ takes `ISZ_ADVANCE` from it and the
reserved codes take `RESERVED_OP_MODE`; no other instruction depends on a parameter (R8). -/
def execAt (cfg : Config) (i : Instr) (s : State) : Host.Outcome State Fault Refusal :=
  match i with
  | .isz p => execIszAt cfg p s
  | .iszI p => execIszIAt cfg p s
  | .asl => execAslAt cfg s
  | .asr => execAsrAt cfg s
  | .inc => execIncAt cfg s
  | .and _ | .andI _ | .add _ | .addI _ | .sub _ | .subI _ | .lda _ | .ldaI _ | .sta _ | .staI _ | .bun _ | .bunI _
  | .cla | .cma | .hlt | .undef _ => exec i s

/-- One step at the configuration `cfg` (R92, R8). -/
def stepAt (cfg : Config) (s : State) : Host.Outcome State Fault Refusal := cycle (execAt cfg) s

/-- The machine at the configuration `cfg`. -/
def coreAt (cfg : Config) : Host.Core :=
  { State := State, Fault := Fault, Refusal := Refusal, step := stepAt cfg, reset := State.reset }

end Sys2Proof.Machine
end

