-- ==== Sys2Proof/Machine/HostInterface.lean ====
section
/-! DEFINITION. What the host does to the core while it is not Running: load, reset, read back, and the
result it sees (spec/20_memory.md R56, R57; spec/70_reset_and_hazards.md R150, R151, R159;
spec/60_exceptions.md R145, R146; spec/92_eei_decisions.md D2, D14). None of it is part of a step. -/

namespace Sys2Proof.Machine

/-- The host may act only while status is not Running (R159; log entry 7). -/
abbrev HostMayAct (s : State) : Prop := s.status ≠ .running

/-- Load (R56, R150 step 2): word i of an image of exactly 64 words goes to address i. Anything else is
turned away: a core that is Running, an image of another length. -/
def hostLoad (image : List Word) (s : State) : Option State :=
  if HostMayAct s ∧ image.length = 64 then some { s with mem := Memory.ofWords 0 image } else none

/-- Reset (R150 step 3): the registers of R33, the run state and the fault record; memory is not
changed (R151). -/
def hostReset (s : State) : Option State :=
  if HostMayAct s then some { State.reset with mem := s.mem } else none

/-- Read of one word of memory by the host (D2). DESIGN CHOICE (log entry 13): the spec gives this read no
outcome for an address above 63, which does not exist (R49); the model answers none, raises nothing and
leaves the core as it is. -/
def hostRead (addr : Nat) (s : State) : Option Word :=
  if HostMayAct s ∧ validAddress addr then some (s.mem.read addr) else none

/-- Readback of all 64 words, word i the word at address i (R57). -/
def hostReadback (s : State) : Option (List Word) :=
  if HostMayAct s then some s.mem.toWords else none

/-- What the host reads beside the memory while the core is not Running: the run state and the fault
record (R57; D2). -/
def hostStatus (s : State) : Option (Status × Option FaultRecord) :=
  if HostMayAct s then some (s.status, s.fault) else none

/-- The three registers as the host sees them (R145, D14). -/
structure HostRegisters where
  pc : Nat
  ac : Word
  ir : Word
  deriving DecidableEq, Repr

/-- Reading of PC, AC and IR by the host: R145 makes them readable while Halted, and they are part of the
observation of an ended run (D14). DESIGN CHOICE (log entry 14): they are readable while Faulted too,
where the spec keeps them (R137) and does not say who reads them. -/
def hostRegisters (s : State) : Option HostRegisters :=
  if HostMayAct s then some { pc := s.pc, ac := s.ac, ir := s.ir } else none

/-- The core after the host loaded `image` and reset it (R150, R33). -/
def State.boot (image : List Word) : State := { State.reset with mem := Memory.ofWords 0 image }

/-- The address of the word in column `col` of row `row` of an image: 8 rows of 8 columns (R40, R56). -/
def imageAddress (row col : Nat) : Nat := row * 8 + col

/-- The 64 words of an image given as 8 rows of 8, in line order (R56); another shape is no image. -/
def imageOfRows (rows : List (List Word)) : Option (List Word) :=
  if rows.length = 8 ∧ ∀ r ∈ rows, r.length = 8 then some rows.flatten else none

/-- How a run stands, as the host sees it (R146). -/
inductive RunResult where
  | normalEnd
  | errorEnd
  | stillRunning
  deriving DecidableEq, Repr

/-- Halted is a normal end, Faulted an error end (R146). -/
def runResult (s : State) : RunResult :=
  match s.status with
  | .halted => .normalEnd
  | .faulted => .errorEnd
  | .running => .stillRunning

end Sys2Proof.Machine
end

