-- ==== Sys2Proof/Safety.lean ====
section
/-! DEFINITION. The terms claims are stated in: the well-formedness of a state, the accesses of a cycle as
spec/20_memory.md R44 lists them, and how a run ends (spec/60_exceptions.md R146). -/

namespace Sys2Proof.Machine

/-- The fault record fits the state it stands in (R30, R131): a fetch fault is at PC, and an
address-field fault is at 64, after an opcode at 63. Every other kind follows a fetch that succeeded. -/
def FaultRecord.fits (e : FaultRecord) (s : State) : Prop :=
  64 ≤ e.addr ∧ e.addr ≤ 255 ∧
  match e.kind with
  | .fetch => e.addr = s.pc
  | .operandFetch => s.pc = 63 ∧ e.addr = 64
  | .pointerRead => s.pc < 63
  | .dataRead => s.pc < 63
  | .dataWrite => s.pc < 63

/-- The invariant of the machine: memory is in canonical form (all its addresses in 0..63), PC is a
reachable value (R23), a fault record is there exactly while Faulted and fits (R30), and a Halted core
stands at the HLT it fetched (R27, R122). -/
structure State.Inv (s : State) : Prop where
  mem_wf : s.mem.wf = true
  pc_le : s.pc ≤ 255
  fault_iff : s.fault.isSome = true ↔ s.status = .faulted
  fault_fits : ∀ e, s.fault = some e → e.fits s
  halted_ir : s.status = .halted → s.ir = 0x60#8 ∧ s.pc < 64

/-- The data accesses of the opcode `op` at the effective address `ea` (R44): AND, ADD, SUB and LDA read
it, STA writes it, ISZ reads and writes it, BUN does not access it. -/
def dataAccesses (op : Word) (ea : Nat) : List (Nat × AccessKind) :=
  if op ∈ [0x01#8, 0x02#8, 0x03#8, 0x04#8, 0x81#8, 0x82#8, 0x83#8, 0x84#8] then [(ea, .dataRead)]
  else if op ∈ [0x08#8, 0x88#8] then [(ea, .dataWrite)]
  else if op ∈ [0x20#8, 0xA0#8] then [(ea, .dataRead), (ea, .dataWrite)]
  else []

/-- The accesses of the cycle that begins in `s`, in the order of R44. An address after one that is out
of range is never reached, so what it is computed from does not matter. -/
def cycleAccesses (s : State) : List (Nat × AccessKind) :=
  let op := s.mem.read s.pc
  let p := (s.mem.read (s.pc + 1)).toNat
  (s.pc, .fetch) ::
    if op ∈ operandCodes then
      (s.pc + 1, .operandFetch) ::
        if 0x80 ≤ op.toNat then (p, .pointerRead) :: dataAccesses op (s.mem.read p).toNat
        else dataAccesses op p
    else []

/-- The first access of the cycle whose address is outside [0,63] (R131, R136). -/
def firstBadAccess (s : State) : Option (Nat × AccessKind) :=
  (cycleAccesses s).find? (fun x => decide (64 ≤ x.1))

/-- The words of the instruction at `a`, as many of the two as exist. -/
def wordsAt (m : Memory) (a : Nat) : List Word :=
  ((List.range 2).filter (fun k => validAddress (a + k))).map (fun k => m.read (a + k))

/-- The core is Running, PC is a valid fetch address, and the opcode word there is `op`. -/
abbrev State.Fetches (s : State) (op : Word) : Prop :=
  s.status = .running ∧ s.pc < 64 ∧ s.mem.read s.pc = op

/-- The address field of the instruction at PC. -/
def State.field (s : State) : Word := s.mem.read (s.pc + 1)

/-- `s` after a cycle that raised OutOfRange(addr, kind) and left `ir` in IR (R137): PC, AC and memory as
before. -/
def State.raised (s : State) (ir : Word) (addr : Nat) (kind : AccessKind) : State :=
  { s with ir := ir, status := .faulted, fault := some { addr := addr, kind := kind } }

/-- The cycle of an operand instruction with the codes `dir` and `ind` under the step function `st`, up to
its effective address (R87): at address 63 the address field does not exist; the direct form's
effective address is the field, the indirect form's is the word the field points at, if that word
exists. `after s op ea t` is what the instruction does with the effective address: the step that
fetched `op` in `s` ends in `t`. -/
def OperandCycleOf (st : State → Host.Outcome State Fault Refusal) (dir ind : Word)
    (after : State → Word → Word → State → Prop) : Prop :=
  (∀ s op, op = dir ∨ op = ind → s.Fetches op → s.pc = 63 →
    st s = .next (s.raised op 64 .operandFetch)) ∧
  (∀ s, s.Fetches dir → s.pc < 63 →
    ∃ t, st s = .next t ∧ after s dir s.field t) ∧
  (∀ s, s.Fetches ind → s.pc < 63 → 64 ≤ s.field.toNat →
    st s = .next (s.raised ind s.field.toNat .pointerRead)) ∧
  (∀ s, s.Fetches ind → s.pc < 63 → s.field.toNat < 64 →
    ∃ t, st s = .next t ∧ after s ind (s.mem.read s.field.toNat) t)

/-- The cycle of an operand instruction under `step`. -/
def OperandCycle (dir ind : Word) (after : State → Word → Word → State → Prop) : Prop :=
  OperandCycleOf step dir ind after

/-- The cycle of a value-consuming instruction whose new AC is `f AC v` (R88, R100 to R103): everything
but AC, PC and IR stays; an effective address above 63 raises OutOfRange(EA, DataRead). -/
def ValueCycle (dir ind : Word) (f : Word → Word → Word) : Prop :=
  OperandCycle dir ind fun s op ea t =>
    (ea.toNat < 64 → t = { s with ir := op, ac := f s.ac (s.mem.read ea.toNat), pc := s.pc + 2 }) ∧
    (64 ≤ ea.toNat → t = s.raised op ea.toNat .dataRead)

/-- `t` is `s` with the word `v` at the address `a` and nothing else of memory changed, word by word. -/
def MemDiffersAt (a : Nat) (v : Word) (s t : State) : Prop :=
  t.mem.read a = v ∧ ∀ b, b ≠ a → t.mem.read b = s.mem.read b

/-- The opcodes that write memory and the operand form each takes (R44, R110, R112): STA 0x08 and ISZ 0x20
direct, STA 0x88 and ISZ 0xA0 indirect. -/
def WritesThrough (op : Word) (mode : AddrMode) : Prop :=
  (mode = .direct ∧ op ∈ [0x08#8, 0x20#8]) ∨ (mode = .indirect ∧ op ∈ [0x88#8, 0xA0#8])

/-- AC, run state and fault record are the same in both. -/
def SameAcAndStatus (s t : State) : Prop :=
  t.ac = s.ac ∧ t.status = s.status ∧ t.fault = s.fault

/-- The state after `k` steps is `t` (no step stops with a fault or a refusal). -/
def Reaches (k : Nat) (s t : State) : Prop := Host.Core.run Sys2Proof.core k s = .next t

/-- The run from `s` comes to a normal end: status Halted (R146). -/
def HaltsFrom (s : State) : Prop := ∃ k t, Reaches k s t ∧ t.status = .halted

/-- The run from `s` comes to an error end: status Faulted (R146). -/
def FaultsFrom (s : State) : Prop := ∃ k t, Reaches k s t ∧ t.status = .faulted

/-- The run from `s` goes on for ever (R94, R146). -/
def RunsForever (s : State) : Prop := ∀ k, ∃ t, Reaches k s t ∧ t.status = .running

/-- A run that never comes to the error end: what a safe program is. -/
def SafeFrom (s : State) : Prop := ∀ k t, Reaches k s t → t.status ≠ .faulted

end Sys2Proof.Machine
end

