-- ==== Sys2Proof/Certificates/Slice0/Obligations.lean ====
section
/-! DEFINITION. The statements for the provers. Each docstring names the rule of spec/ it formalises. -/

open Sys2Proof Sys2Proof.Machine

/-! ### Encoding -/

/-- Decoding the words of a well-formed instruction gives it back, whatever words follow (R62, R63, R67). -/
def Obligations.DecodeOfEncode : Prop :=
  ∀ (i : Instr) (rest : List Word), i.wf = true → decode (encode i ++ rest) = .ok (i, rest)

/-- What decodes is well-formed and encodes to exactly the words it was read from (R66, R67). -/
def Obligations.EncodeOfDecode : Prop :=
  ∀ (ws rest : List Word) (i : Instr), decode ws = .ok (i, rest) → i.wf = true ∧ encode i ++ rest = ws

/-- The length is 2 for the 14 operand codes and 1 otherwise, from the opcode word alone, and the
decoder reads an address field only when the length is 2 (R64, derived there from R62 and R63). -/
def Obligations.LengthFromOpcodeAlone : Prop :=
  ∀ (op p : Word) (rest : List Word),
    (op ∈ [0x01#8, 0x02#8, 0x03#8, 0x04#8, 0x08#8, 0x10#8, 0x20#8,
           0x81#8, 0x82#8, 0x83#8, 0x84#8, 0x88#8, 0x90#8, 0xA0#8] →
      instrLength op = 2 ∧ decode [op] = .error (.noAddressField op) ∧
      ∃ i, decode (op :: p :: rest) = .ok (i, rest)) ∧
    (op ∉ [0x01#8, 0x02#8, 0x03#8, 0x04#8, 0x08#8, 0x10#8, 0x20#8,
           0x81#8, 0x82#8, 0x83#8, 0x84#8, 0x88#8, 0x90#8, 0xA0#8] →
      instrLength op = 1 ∧ ∃ i, decode (op :: rest) = .ok (i, rest))

/-- R89: the decode function on every opcode word, the complete opcode map of R67. -/
def Obligations.OpcodeMap : Prop :=
  (∀ (p : Word) (rest : List Word),
    decode (0x01#8 :: p :: rest) = .ok (.and p, rest) ∧ decode (0x81#8 :: p :: rest) = .ok (.andI p, rest) ∧
    decode (0x02#8 :: p :: rest) = .ok (.add p, rest) ∧ decode (0x82#8 :: p :: rest) = .ok (.addI p, rest) ∧
    decode (0x03#8 :: p :: rest) = .ok (.sub p, rest) ∧ decode (0x83#8 :: p :: rest) = .ok (.subI p, rest) ∧
    decode (0x04#8 :: p :: rest) = .ok (.lda p, rest) ∧ decode (0x84#8 :: p :: rest) = .ok (.ldaI p, rest) ∧
    decode (0x08#8 :: p :: rest) = .ok (.sta p, rest) ∧ decode (0x88#8 :: p :: rest) = .ok (.staI p, rest) ∧
    decode (0x10#8 :: p :: rest) = .ok (.bun p, rest) ∧ decode (0x90#8 :: p :: rest) = .ok (.bunI p, rest) ∧
    decode (0x20#8 :: p :: rest) = .ok (.isz p, rest) ∧ decode (0xA0#8 :: p :: rest) = .ok (.iszI p, rest)) ∧
  (∀ rest : List Word,
    decode (0x41#8 :: rest) = .ok (.cla, rest) ∧ decode (0x42#8 :: rest) = .ok (.cma, rest) ∧
    decode (0x60#8 :: rest) = .ok (.hlt, rest) ∧ decode (0x44#8 :: rest) = .ok (.asl, rest) ∧
    decode (0x48#8 :: rest) = .ok (.asr, rest) ∧ decode (0x50#8 :: rest) = .ok (.inc, rest)) ∧
  (∀ (op : Word) (rest : List Word),
    op ∉ [0x01#8, 0x81#8, 0x02#8, 0x82#8, 0x03#8, 0x83#8, 0x04#8, 0x84#8, 0x08#8, 0x88#8, 0x10#8, 0x90#8,
          0x20#8, 0xA0#8, 0x41#8, 0x42#8, 0x60#8, 0x44#8, 0x48#8, 0x50#8] →
    decode (op :: rest) = .ok (.undef op, rest))

/-- Words written out from the spec's encodings, one of each family, numbered as the opcode table numbers
them: ADD 0x0B is `02 0B`, STA I 0x16 is `88 16`, CMA is `42` (R73), HLT 0x60, ASL 0x44, 0xE0 undefined. -/
def Obligations.SpecWordsDecode : Prop :=
  decodeTableWord 16 0x0B02 = some (.add 0x0B#8) ∧ decodeTableWord 16 0x1688 = some (.staI 0x16#8) ∧
  decodeTableWord 8 0x42 = some .cma ∧ decodeTableWord 8 0x60 = some .hlt ∧
  decodeTableWord 8 0x44 = some .asl ∧ decodeTableWord 8 0xE0 = some (.undef 0xE0#8)

/-- R70: the undefined opcodes are the 236 values of the listed ranges, and each executes as a no-op that
advances PC by 1. -/
def Obligations.UndefinedOpcodesAreNoOps : Prop :=
  (∀ op : Word, op ∉ definedCodes ↔
    (op.toNat = 0x00 ∨ (0x05 ≤ op.toNat ∧ op.toNat ≤ 0x07) ∨ (0x09 ≤ op.toNat ∧ op.toNat ≤ 0x0F) ∨
     (0x11 ≤ op.toNat ∧ op.toNat ≤ 0x1F) ∨ (0x21 ≤ op.toNat ∧ op.toNat ≤ 0x40) ∨ op.toNat = 0x43 ∨
     (0x45 ≤ op.toNat ∧ op.toNat ≤ 0x47) ∨ (0x49 ≤ op.toNat ∧ op.toNat ≤ 0x4F) ∨
     (0x51 ≤ op.toNat ∧ op.toNat ≤ 0x5F) ∨ (0x61 ≤ op.toNat ∧ op.toNat ≤ 0x80) ∨
     (0x85 ≤ op.toNat ∧ op.toNat ≤ 0x87) ∨ (0x89 ≤ op.toNat ∧ op.toNat ≤ 0x8F) ∨
     (0x91 ≤ op.toNat ∧ op.toNat ≤ 0x9F) ∨ 0xA1 ≤ op.toNat)) ∧
  ((List.range 256).filter (fun n => !definedCodes.contains (BitVec.ofNat 8 n))).length = 236 ∧
  (∀ (s : State) (op : Word), op ∉ definedCodes → s.Fetches op →
    step s = .next { s with ir := op, pc := s.pc + 1 })

/-- As R68 derives from the map: CLA, CMA and HLT have no indirect form; 0xC1, 0xC2 and 0xE0 are undefined one-word no-ops, and
0xE0 does not halt. -/
def Obligations.NoIndirectFormOfOneWordCodes : Prop :=
  ∀ op : Word, op ∈ [0xC1#8, 0xC2#8, 0xE0#8] →
    (∀ rest : List Word, decode (op :: rest) = .ok (.undef op, rest)) ∧
    (∀ s : State, s.Fetches op → step s = .next { s with ir := op, pc := s.pc + 1 })

/-! ### The cycle -/

/-- When the words at PC decode to an instruction, a step of a Running core is the instruction's operation
in the state whose IR holds the opcode word, and nothing else is changed before it (R92). -/
def Obligations.StepRunsDecodedInstruction : Prop :=
  ∀ (s : State) (i : Instr) (rest : List Word), s.status = .running →
    decode (wordsAt s.mem s.pc) = .ok (i, rest) →
    step s = exec i { s with ir := s.mem.read s.pc }

/-- A fetch at PC = 64 or above raises OutOfRange(PC, Fetch), however large PC is, and IR keeps its old
value (R26, R137; what is kept is the spec's own decision D4, the record D5; log entry 4). -/
def Obligations.FetchPastMemoryFaults : Prop :=
  ∀ s : State, s.status = .running → 64 ≤ s.pc →
    step s = .next { s with status := .faulted, fault := some { addr := s.pc, kind := .fetch } }

/-- The net PC update of one cycle, the table of R25. Its ISZ rows are the spec's own decision D3 (log entry 2)
and its fault row is decision D4 (log entry 4). -/
def Obligations.PcAfterCycle : Prop :=
  ∀ s t : State, s.status = .running → step s = .next t →
    let op := s.mem.read s.pc
    let p := s.field.toNat
    let pointed := (s.mem.read p).toNat
    (t.status = .faulted → t.pc = s.pc) ∧
    (t.status ≠ .faulted →
      (op ∈ [0x01#8, 0x81#8, 0x02#8, 0x82#8, 0x03#8, 0x83#8, 0x04#8, 0x84#8, 0x08#8, 0x88#8] → t.pc = s.pc + 2) ∧
      (op = 0x10#8 → t.pc = p) ∧
      (op = 0x90#8 → t.pc = pointed) ∧
      (op = 0x20#8 → t.pc = s.pc + if t.mem.read p = 0x00#8 then 3 else 2) ∧
      (op = 0xA0#8 → t.pc = s.pc + if t.mem.read pointed = 0x00#8 then 3 else 2) ∧
      (op = 0x60#8 → t.pc = s.pc) ∧
      (op ∉ [0x01#8, 0x81#8, 0x02#8, 0x82#8, 0x03#8, 0x83#8, 0x04#8, 0x84#8, 0x08#8, 0x88#8, 0x10#8, 0x90#8,
             0x20#8, 0xA0#8, 0x60#8] → t.pc = s.pc + 1))

/-- Of the cycle's accesses in the order of R44, the first whose address is outside [0,63] is the one that
raises OutOfRange, with its address and kind; where there is none, no exception is raised (R44, R131, R136;
the record is the spec's own decision D5 and the state Faulted D6, log entry 4, and that the first one is
reported is derived there). -/
def Obligations.FirstBadAccessIsReported : Prop :=
  ∀ s : State, s.status = .running →
    (∀ addr kind, firstBadAccess s = some (addr, kind) →
      ∃ t, step s = .next t ∧ t.status = .faulted ∧ t.fault = some { addr := addr, kind := kind }) ∧
    (firstBadAccess s = none → ∃ t, step s = .next t ∧ t.status ≠ .faulted ∧ t.fault = s.fault)

/-- As R137 has it, by the spec's own decisions D4 to D6 (log entry 4): a cycle that raises OutOfRange(addr, kind) sets the run state and the record, keeps PC, AC and all
of memory, and leaves in IR the opcode it fetched, or IR's old value when kind = Fetch. -/
def Obligations.OutOfRangeIsPrecise : Prop :=
  ∀ s t : State, s.status = .running → step s = .next t → t.status = .faulted →
    ∃ e : FaultRecord, firstBadAccess s = some (e.addr, e.kind) ∧
      t = { s with status := .faulted, fault := some e,
                   ir := if e.kind = .fetch then s.ir else s.mem.read s.pc }

/-- In Halted and in Faulted a step changes nothing (R91; that the model says this as a step to the same
state is its own reading, log entry 6). -/
def Obligations.HaltedAndFaultedAreTerminal : Prop :=
  ∀ s : State, s.status ≠ .running → step s = .next s

/-- A Running core stops running only by fetching HLT, and is then Halted, or by an access out of range,
and is then Faulted (R29, R94). That the state Faulted is one of its own is the spec's own decision D6, and
the model's step to it as a next state is log entry 4. -/
def Obligations.RunningEndsOnlyByHltOrOutOfRange : Prop :=
  ∀ s t : State, s.status = .running → step s = .next t → t.status ≠ .running →
    (t.status = .halted ∧ s.pc < 64 ∧ s.mem.read s.pc = 0x60#8 ∧ firstBadAccess s = none) ∨
    (t.status = .faulted ∧ ∃ addr kind, firstBadAccess s = some (addr, kind) ∧ 64 ≤ addr)

/-- Every instruction in every state, and every step of every state, answers a next state: the model stops
nowhere. This is the model's own form of spec/93_implementation_defined.md, end of part 1: that OutOfRange
answers a next state is log entry 4, that a Halted or Faulted core does is log entry 6, and that the reserved
codes never refuse at the default configuration is log entry 3. -/
def Obligations.EveryStepAnswersNext : Prop :=
  (∀ (i : Instr) (s : State), ∃ t, exec i s = .next t) ∧ ∀ s : State, ∃ t, step s = .next t

/-- R58: only STA and ISZ write memory; every other instruction, and every cycle that raises OutOfRange,
leaves all words unchanged. -/
def Obligations.OnlyStaAndIszWriteMemory : Prop :=
  ∀ s t : State, s.status = .running → step s = .next t →
    (t.status = .faulted ∨ s.mem.read s.pc ∉ [0x08#8, 0x88#8, 0x20#8, 0xA0#8]) →
    ∀ a, t.mem.read a = s.mem.read a

/-- A cycle of STA or ISZ changes no word but the one its effective address names, and none past 63; every
other cycle, and one whose effective address does not exist, changes none (R44, R48, both of the spec's
derivations). The effective address is taken in the state before the cycle. -/
def Obligations.OneCycleWritesOneWord : Prop :=
  ∀ s t : State, step s = .next t →
    (∀ mode ea, WritesThrough (s.mem.read s.pc) mode → effectiveAddress mode s.field s = .ok ea →
      ∀ a, a ≠ ea.toNat ∨ 64 ≤ a → t.mem.read a = s.mem.read a) ∧
    (s.status ≠ .running ∨ s.mem.read s.pc ∉ [0x08#8, 0x88#8, 0x20#8, 0xA0#8] →
      ∀ a, t.mem.read a = s.mem.read a) ∧
    (∀ mode e, WritesThrough (s.mem.read s.pc) mode → effectiveAddress mode s.field s = .error e →
      ∀ a, t.mem.read a = s.mem.read a)

/-- AC is written only by AND, ADD, SUB, LDA, CLA and CMA (R21). -/
def Obligations.AcWriters : Prop :=
  ∀ s t : State, step s = .next t → t.ac ≠ s.ac →
    s.status = .running ∧ s.mem.read s.pc ∈
      [0x01#8, 0x81#8, 0x02#8, 0x82#8, 0x03#8, 0x83#8, 0x04#8, 0x84#8, 0x41#8, 0x42#8]

/-- AC is read only by AND, ADD, SUB, STA and CMA (R21). BUN, ISZ, HLT, the reserved codes and the undefined
opcodes do the same to the rest of the state whatever AC holds, and leave AC as it is. LDA with an operand
and CLA end in the very same state whatever AC held; an LDA whose operand does not exist does the same to the
rest and leaves AC as it is. (The reserved codes at the default configuration, log entry 3; AC kept by an
OutOfRange is the spec's own decision D4, log entry 4.) -/
def Obligations.AcReaders : Prop :=
  ∀ (s : State) (p op x : Word),
    (∀ i ∈ [Instr.bun p, .bunI p, .isz p, .iszI p, .hlt, .asl, .asr, .inc, .undef op],
      ∃ t, exec i s = .next t ∧ exec i { s with ac := x } = .next { t with ac := x }) ∧
    (∃ t, exec .cla s = .next t ∧ exec .cla { s with ac := x } = .next t) ∧
    (∀ i mode, (i = .lda p ∧ mode = .direct) ∨ (i = .ldaI p ∧ mode = .indirect) →
      (∀ v, operandValue mode p s = .ok v →
        ∃ t, exec i s = .next t ∧ exec i { s with ac := x } = .next t) ∧
      (∀ e, operandValue mode p s = .error e →
        ∃ t, exec i s = .next t ∧ exec i { s with ac := x } = .next { t with ac := x }))

/-- A cycle whose fetch succeeds writes IR with the opcode word and nothing writes it otherwise; a failed
fetch leaves it (the spec's own decision D4); no instruction reads it as data; after a HLT it holds 0x60 (R27). -/
def Obligations.IrHoldsTheFetchedOpcode : Prop :=
  (∀ s t : State, s.status = .running → step s = .next t →
    (s.pc < 64 → t.ir = s.mem.read s.pc) ∧ (64 ≤ s.pc → t.ir = s.ir) ∧
    (t.status = .halted → t.ir = 0x60#8)) ∧
  (∀ (i : Instr) (s t : State) (x : Word), exec i s = .next t →
    t.ir = s.ir ∧ exec i { s with ir := x } = .next { t with ir := x })

/-! ### Invariant, reset and the host -/

/-- Every step from a state that meets the invariant gives a state that meets it (R20, R23, R29, R30, R40). The
fault record is the spec's own decision D5 and the state Faulted D6 (log entry 4). -/
def Obligations.StepKeepsInv : Prop :=
  ∀ s t : State, s.Inv → step s = .next t → t.Inv

/-- The state after reset meets the invariant, and so does the state after loading any image of 64 words and
resetting (R33, R150). That State.reset, with nothing loaded, reads 0x00 everywhere is the model's choice (log
entry 1). -/
def Obligations.ResetAndBootMeetInv : Prop :=
  State.reset.Inv ∧ ∀ image : List Word, image.length = 64 → (State.boot image).Inv

/-- The host's load and reset keep the invariant (R56, R150). When the host may load and reset is the spec's own
decision D2 (log entry 7), and that a reset keeps memory D12. -/
def Obligations.HostKeepsInv : Prop :=
  ∀ s t : State, s.Inv → (hostReset s = some t ∨ ∃ image, hostLoad image s = some t) → t.Inv

/-- The values after reset, R33. Memory holds the image the host loaded, word i at address i, and reset
itself does not change it (the spec's own decision D12; that there is no fault record is D5; that every core
not Running takes a reset is D2, log entry 7). -/
def Obligations.ResetValues : Prop :=
  (∀ s : State, s.status ≠ .running → ∃ t, hostReset s = some t ∧
    t.pc = 0 ∧ t.ac = 0x00#8 ∧ t.ir = 0x00#8 ∧ t.status = .running ∧ t.fault = none ∧ t.mem = s.mem) ∧
  (State.reset.pc = 0 ∧ State.reset.ac = 0x00#8 ∧ State.reset.ir = 0x00#8 ∧
    State.reset.status = .running ∧ State.reset.fault = none) ∧
  (∀ (image : List Word) (i : Nat) (h : i < image.length), image.length = 64 →
    (State.boot image).mem.read i = image[i])

/-- Loading an image of 64 words and then resetting gives the same start state from every core that is not
Running, whatever its last run left (R150, R151). That every core not Running takes the load and the reset
is the spec's own decision D2 (log entry 7), and what a reset sets and keeps D12. -/
def Obligations.LoadThenResetIsBoot : Prop :=
  ∀ (s : State) (image : List Word), s.status ≠ .running → image.length = 64 →
    ∃ t, hostLoad image s = some t ∧ t.status = s.status ∧ hostReset t = some (State.boot image)

/-- What the host loads is what it reads back, all 64 words (R56, R57). That the host may load, and may read a
Halted or Faulted core word by word, is the spec's own decisions D2 and D6 (log entry 7). -/
def Obligations.ReadbackOfLoad : Prop :=
  ∀ (s t : State) (image : List Word), hostLoad image s = some t →
    hostReadback t = some image ∧ ∀ a, a < 64 → hostRead a t = image[a]?

/-- The host is shut out while the core is Running, and no image but one of exactly 64 words is taken
(R56, R159, the spec's own decision D2; log entry 7). That a read of an address above 63 answers none is the
model's choice (log entry 13). -/
def Obligations.HostIsShutOutWhileRunning : Prop :=
  (∀ (s : State) (image : List Word) (a : Nat), s.status = .running →
    hostLoad image s = none ∧ hostReset s = none ∧ hostRead a s = none ∧ hostReadback s = none ∧
    hostStatus s = none) ∧
  (∀ (s : State) (image : List Word), image.length ≠ 64 → hostLoad image s = none) ∧
  (∀ (s : State) (a : Nat), 64 ≤ a → hostRead a s = none)

/-- An image given as 8 rows of 8 words has 64 words, and the word in column c of row r is at address
r*8 + c (R40, R56). -/
def Obligations.ImageRowsGiveAddresses : Prop :=
  ∀ (rows : List (List Word)) (image : List Word), imageOfRows rows = some image →
    image.length = 64 ∧
    ∀ (r c : Nat) (row : List Word), rows[r]? = some row → c < 8 → image[imageAddress r c]? = row[c]?

/-- An instruction assembled at an address it fits at is what the decoder reads there (R46, R73, R75). The
notation is the spec's own decision D11; that an undefined opcode is an item of it too is the model's choice
(log entry 8). -/
def Obligations.AssembledInstructionDecodes : Prop :=
  ∀ (i : Instr) (a : Nat), i.wf = true → a + (encode i).length ≤ 64 →
    ∃ m rest, assembleFrom 0 [{ addr := some a, item := .instr i }] [] = some m ∧
      decode (wordsAt m a) = .ok (i, rest)

/-! ### Memory, Arithmetic Unit, Addressing Resolver -/

/-- R41, R42: a read of an address in [0,63] gives the word there, a write changes that word and nothing
else; any other address raises OutOfRange, and then nothing is written. -/
def Obligations.MemoryAccessRules : Prop :=
  ∀ (a : Nat) (kind : AccessKind) (v : Word) (s : State),
    (a < 64 → memRead a kind s = .ok (s.mem.read a) ∧
      ∃ t, memWrite a v s = .ok t ∧ MemDiffersAt a v s t ∧ SameAcAndStatus s t ∧ t.pc = s.pc ∧ t.ir = s.ir) ∧
    (64 ≤ a → memRead a kind s = .error { addr := a, kind := kind } ∧
      memWrite a v s = .error { addr := a, kind := .dataWrite })

/-- Memories in canonical form that read the same at every address are equal data. The form is the model's own
representation of R40's 64 words (log entry 10). -/
def Obligations.CanonicalMemoriesAreEqualData : Prop :=
  ∀ m n : Memory, m.wf = true → n.wf = true → (∀ a, a < 64 → m.read a = n.read a) → m = n

/-- R80: the signed reading of a word, its range, and that it round-trips modulo 256. -/
def Obligations.ToSignedRoundTrips : Prop :=
  ∀ w : Word,
    toSigned w = (if 128 ≤ w.toNat then -(256 - (w.toNat : Int)) else (w.toNat : Int)) ∧
    -128 ≤ toSigned w ∧ toSigned w ≤ 127 ∧ toSigned w % 256 = (w.toNat : Int) ∧ toWord (toSigned w) = w

/-- R82: addition and subtraction of signed readings modulo 256, equal to the modular arithmetic of the
patterns (for subtraction R83, and the source's property S2 of 95_test_vectors.md). -/
def Obligations.AddSubAreModular : Prop :=
  ∀ a b : Word,
    ((add8 a b).toNat : Int) = (toSigned a + toSigned b) % 256 ∧
    (add8 a b).toNat = (a.toNat + b.toNat) % 256 ∧
    ((sub8 a b).toNat : Int) = (toSigned a - toSigned b) % 256 ∧
    ((sub8 a b).toNat : Int) = ((a.toNat : Int) - (b.toNat : Int)) % 256

/-- AND bit by bit (R84); the complement, `a xor 0xFF = 255 - a` (R85; that it is taken on exactly 8 bits is
the spec's own decision D9). -/
def Obligations.LogicIsBitwise : Prop :=
  ∀ a b : Word,
    (∀ i, i < 8 → (and8 a b).getLsbD i = (a.getLsbD i && b.getLsbD i)) ∧
    not8 a = a ^^^ 0xFF#8 ∧ (not8 a).toNat = 255 - a.toNat ∧ (∀ i, i < 8 → (not8 a).getLsbD i = !a.getLsbD i)

/-- The two operand forms once the address field is read: the effective address (R87) and the value there
(R88), with the exception each raises (its record, address and kind, is the spec's own decision D5). -/
def Obligations.OperandForms : Prop :=
  ∀ (p : Word) (s : State),
    effectiveAddress .direct p s = .ok p ∧
    (p.toNat < 64 → effectiveAddress .indirect p s = .ok (s.mem.read p.toNat)) ∧
    (64 ≤ p.toNat → effectiveAddress .indirect p s = .error { addr := p.toNat, kind := .pointerRead } ∧
      operandValue .indirect p s = .error { addr := p.toNat, kind := .pointerRead }) ∧
    (∀ mode ea, effectiveAddress mode p s = .ok ea →
      (ea.toNat < 64 → operandValue mode p s = .ok (s.mem.read ea.toNat)) ∧
      (64 ≤ ea.toNat → operandValue mode p s = .error { addr := ea.toNat, kind := .dataRead }))

/-! ### The cycle of each instruction, from its fetch -/

/-- AND, both forms, from the fetch of its opcode (R100). In its OutOfRange clauses the state Faulted, its
record and what it keeps are the spec's own decisions D4 to D6 in R137 (log entry 4). -/
def Obligations.AndCycle : Prop :=
  ValueCycle 0x01#8 0x81#8 fun ac v => ac &&& v

/-- ADD, both forms: AC becomes (AC + v) mod 256 (R101). In its OutOfRange clauses the state Faulted, its
record and what it keeps are the spec's own decisions D4 to D6 in R137 (log entry 4). -/
def Obligations.AddCycle : Prop :=
  ValueCycle 0x02#8 0x82#8 fun ac v => BitVec.ofNat 8 ((ac.toNat + v.toNat) % 256)

/-- SUB, both forms: AC becomes (AC - v) mod 256, AC the minuend (R102). In its OutOfRange clauses the state
Faulted, its record and what it keeps are the spec's own decisions D4 to D6 in R137 (log entry 4). -/
def Obligations.SubCycle : Prop :=
  ValueCycle 0x03#8 0x83#8 fun ac v => BitVec.ofInt 8 (((ac.toNat : Int) - (v.toNat : Int)) % 256)

/-- LDA, both forms: AC becomes the word at the effective address, whatever AC held (R103). An indirect LDA
whose address field points at itself loads the field. STA followed by LDA from the same address
reproduces the stored value, whatever AC held between. In the OutOfRange clauses the state Faulted, its
record and what it keeps are the spec's own decisions D4 to D6 in R137 (log entry 4). -/
def Obligations.LdaCycle : Prop :=
  (ValueCycle 0x04#8 0x84#8 fun _ v => v) ∧
  (∀ s : State, s.Fetches 0x84#8 → s.pc < 63 → s.field.toNat = s.pc + 1 →
    ∃ t, step s = .next t ∧ t.ac = s.field) ∧
  (∀ (p x : Word) (s : State), p.toNat < 64 →
    ∃ t, exec (.sta p) s = .next t ∧
      ∃ u, exec (.lda p) { t with ac := x } = .next u ∧ u.ac = s.ac)

/-- STA, both forms (R110): AC is stored at the effective address and no other word changes; AC stays. A store
into the next instruction is what the next cycle fetches, and LDA from the same address reproduces the
stored value. In the OutOfRange clauses the state Faulted, its record and what it keeps are the spec's own
decisions D4 to D6 in R137 (log entry 4). -/
def Obligations.StaCycle : Prop :=
  OperandCycle 0x08#8 0x88#8 fun s op ea t =>
    (ea.toNat < 64 →
      MemDiffersAt ea.toNat s.ac s t ∧ SameAcAndStatus s t ∧ t.pc = s.pc + 2 ∧ t.ir = op ∧
      (ea.toNat = s.pc + 2 → ∃ u, step t = .next u ∧ u.ir = s.ac) ∧
      (∀ x, ∃ u, exec (.lda ea) { t with ac := x } = .next u ∧ u.ac = s.ac)) ∧
    (64 ≤ ea.toNat → t = s.raised op ea.toNat .dataWrite)

/-- BUN, both forms (R111): PC becomes the effective address, unchecked, and nothing else changes; the next
cycle fetches there, or raises OutOfRange(EA, Fetch) where there is no such address. In the OutOfRange
clauses (OperandFetch, PointerRead and the next cycle's Fetch) the state Faulted, its record and what it
keeps are the spec's own decisions D4 to D6 in R137 (log entry 4). -/
def Obligations.BunCycle : Prop :=
  OperandCycle 0x10#8 0x90#8 fun s op ea t =>
    t = { s with ir := op, pc := ea.toNat } ∧
    (ea.toNat < 64 → ∃ u, step t = .next u ∧ u.ir = s.mem.read ea.toNat) ∧
    (64 ≤ ea.toNat → step t = .next (t.raised op ea.toNat .fetch))

/-- ISZ, both forms (R112): the word at the effective address is incremented modulo 256; PC advances by 3 if
the result is zero, else by 2, which is the spec's own decision D3 (log entry 2); for another value (n, s) of
ISZ_ADVANCE by s and by n. In the OutOfRange clauses the state Faulted, its record and what it keeps are the
spec's own decisions D4 to D6 in R137 (log entry 4). -/
def Obligations.IszCycle : Prop :=
  (OperandCycle 0x20#8 0xA0#8 fun s op ea t =>
    let r := BitVec.ofNat 8 ((s.mem.read ea.toNat).toNat + 1)
    (ea.toNat < 64 →
      MemDiffersAt ea.toNat r s t ∧ SameAcAndStatus s t ∧ t.ir = op ∧
      t.pc = s.pc + if r = 0x00#8 then 3 else 2) ∧
    (64 ≤ ea.toNat → t = s.raised op ea.toNat .dataRead)) ∧
  (∀ (cfg : Config) (mode : AddrMode) (p ea : Word) (s : State),
    effectiveAddress mode p s = .ok ea → ea.toNat < 64 →
    let r := BitVec.ofNat 8 ((s.mem.read ea.toNat).toNat + 1)
    ∃ t, incrementSkipOp cfg mode p s = .next t ∧ MemDiffersAt ea.toNat r s t ∧
      t.pc = s.pc + if r = 0x00#8 then cfg.iszAdvance.skip else cfg.iszAdvance.noSkip)

/-- R120: CLA, encoded 0x41 only. -/
def Obligations.ClaCycle : Prop :=
  (∀ s : State, s.Fetches 0x41#8 → step s = .next { s with ir := 0x41#8, ac := 0x00#8, pc := s.pc + 1 }) ∧
  (∀ s : State, s.Fetches 0xC1#8 → step s = .next { s with ir := 0xC1#8, pc := s.pc + 1 })

/-- CMA, encoded 0x42 only (R121): the complement on 8 bits, the spec's own decision D9; two in a row restore
AC. -/
def Obligations.CmaCycle : Prop :=
  (∀ s : State, s.Fetches 0x42#8 → step s = .next { s with ir := 0x42#8, ac := s.ac ^^^ 0xFF#8, pc := s.pc + 1 }) ∧
  (∀ s : State, s.Fetches 0xC2#8 → step s = .next { s with ir := 0xC2#8, pc := s.pc + 1 }) ∧
  (∀ s : State, s.Fetches 0x42#8 → s.pc < 63 → s.mem.read (s.pc + 1) = 0x42#8 →
    ∃ t, step s = .next t ∧ ∃ u, step t = .next u ∧ u.ac = s.ac ∧ u.pc = s.pc + 2)

/-- HLT, encoded 0x60 only (R122): the core is Halted, PC stays, AC and memory stay, and no further step
changes anything (log entry 6). -/
def Obligations.HltCycle : Prop :=
  (∀ s : State, s.Fetches 0x60#8 →
    ∃ t, step s = .next t ∧ t = { s with ir := 0x60#8, status := .halted } ∧ step t = .next t) ∧
  (∀ s : State, s.Fetches 0xE0#8 → step s = .next { s with ir := 0xE0#8, pc := s.pc + 1 })

/-- The reserved codes are one-word no-ops at `RESERVED_OP_MODE = nop`, and have no meaning at `refuse` (R123,
R124, R125; the default is the spec's own decision D8, log entry 3). -/
def Obligations.ReservedCycle : Prop :=
  (∀ (s : State) (op : Word), op ∈ [0x44#8, 0x48#8, 0x50#8] → s.Fetches op →
    step s = .next { s with ir := op, pc := s.pc + 1 }) ∧
  (∀ (cfg : Config) (s : State) (op : Word), op ∈ [0x44#8, 0x48#8, 0x50#8] →
    (cfg.reservedOpMode = .nop → reservedOp cfg op s = .next { s with pc := s.pc + 1 }) ∧
    (cfg.reservedOpMode = .refuse → reservedOp cfg op s = .refused (.reservedOpcode op)))

/-- An opcode that matches no table entry is a one-word no-op and raises nothing; after one at address 63 the
next fetch is at 64 and raises OutOfRange (R126). The state Faulted after that fetch, its record and what it
keeps are the spec's own decisions D4 to D6 in R137 (log entry 4). -/
def Obligations.UndefCycle : Prop :=
  ∀ (s : State) (op : Word),
    op ∉ [0x01#8, 0x81#8, 0x02#8, 0x82#8, 0x03#8, 0x83#8, 0x04#8, 0x84#8, 0x08#8, 0x88#8, 0x10#8, 0x90#8,
          0x20#8, 0xA0#8, 0x41#8, 0x42#8, 0x60#8, 0x44#8, 0x48#8, 0x50#8] →
    s.Fetches op →
    ∃ t, step s = .next t ∧ t = { s with ir := op, pc := s.pc + 1 } ∧
      (s.pc = 63 → step t = .next (t.raised op 64 .fetch))

/-! ### Each instruction completes -/

/-- AND, ADD, SUB and LDA complete, with the whole next state, wherever the words they address exist. -/
def Obligations.ValueOpsComplete : Prop :=
  (∀ (p : Word) (s : State), p.toNat < 64 →
    let v := s.mem.read p.toNat
    exec (.and p) s = .next { s with ac := s.ac &&& v, pc := s.pc + 2 } ∧
    exec (.add p) s = .next { s with ac := s.ac + v, pc := s.pc + 2 } ∧
    exec (.sub p) s = .next { s with ac := s.ac - v, pc := s.pc + 2 } ∧
    exec (.lda p) s = .next { s with ac := v, pc := s.pc + 2 }) ∧
  (∀ (p : Word) (s : State), p.toNat < 64 → (s.mem.read p.toNat).toNat < 64 →
    let v := s.mem.read (s.mem.read p.toNat).toNat
    exec (.andI p) s = .next { s with ac := s.ac &&& v, pc := s.pc + 2 } ∧
    exec (.addI p) s = .next { s with ac := s.ac + v, pc := s.pc + 2 } ∧
    exec (.subI p) s = .next { s with ac := s.ac - v, pc := s.pc + 2 } ∧
    exec (.ldaI p) s = .next { s with ac := v, pc := s.pc + 2 })

/-- STA completes at every effective address that exists; the word there becomes AC, every other word and
every register but PC stays. -/
def Obligations.StaCompletes : Prop :=
  ∀ (p ea : Word) (s : State),
    (effectiveAddress .direct p s = .ok ea → ea.toNat < 64 →
      ∃ t, exec (.sta p) s = .next t ∧ MemDiffersAt ea.toNat s.ac s t ∧ SameAcAndStatus s t ∧
        t.ir = s.ir ∧ t.pc = s.pc + 2) ∧
    (effectiveAddress .indirect p s = .ok ea → ea.toNat < 64 →
      ∃ t, exec (.staI p) s = .next t ∧ MemDiffersAt ea.toNat s.ac s t ∧ SameAcAndStatus s t ∧
        t.ir = s.ir ∧ t.pc = s.pc + 2)

/-- BUN completes at every target, in range or not, and changes PC alone; the indirect form needs its pointer
to exist. -/
def Obligations.BunCompletes : Prop :=
  ∀ (p : Word) (s : State),
    exec (.bun p) s = .next { s with pc := p.toNat } ∧
    (p.toNat < 64 → exec (.bunI p) s = .next { s with pc := (s.mem.read p.toNat).toNat })

/-- ISZ completes at every effective address that exists; the word there becomes its increment, every other
word and every register but PC stays, and PC skips one word more exactly when the increment is zero (the
advances 2 and 3 are the spec's own decision D3, log entry 2). -/
def Obligations.IszCompletes : Prop :=
  ∀ (p ea : Word) (s : State),
    (effectiveAddress .direct p s = .ok ea → ea.toNat < 64 →
      ∃ t, exec (.isz p) s = .next t ∧ MemDiffersAt ea.toNat (s.mem.read ea.toNat + 1#8) s t ∧
        SameAcAndStatus s t ∧ t.ir = s.ir ∧
        t.pc = s.pc + if s.mem.read ea.toNat = 0xFF#8 then 3 else 2) ∧
    (effectiveAddress .indirect p s = .ok ea → ea.toNat < 64 →
      ∃ t, exec (.iszI p) s = .next t ∧ MemDiffersAt ea.toNat (s.mem.read ea.toNat + 1#8) s t ∧
        SameAcAndStatus s t ∧ t.ir = s.ir ∧
        t.pc = s.pc + if s.mem.read ea.toNat = 0xFF#8 then 3 else 2)

/-- CLA, CMA, HLT, the reserved ASL, ASR and INC (at the default configuration, log entry 3) and every
undefined opcode complete in every state, with the whole next state. -/
def Obligations.OneWordInstructionsComplete : Prop :=
  ∀ (op : Word) (s : State),
    exec .cla s = .next { s with ac := 0x00#8, pc := s.pc + 1 } ∧
    exec .cma s = .next { s with ac := ~~~s.ac, pc := s.pc + 1 } ∧
    exec .hlt s = .next { s with status := .halted } ∧
    exec .asl s = .next { s with pc := s.pc + 1 } ∧
    exec .asr s = .next { s with pc := s.pc + 1 } ∧
    exec .inc s = .next { s with pc := s.pc + 1 } ∧
    exec (.undef op) s = .next { s with pc := s.pc + 1 }

/-- Where the effective address of AND, ADD, SUB, LDA, STA or ISZ does not exist, or the pointer of the indirect
form of one of these or of BUN, the instruction raises OutOfRange with that address and the kind of the
access, and changes nothing else (R131, R137: the spec's own decisions D4 to D6, log entry 4). BUN does not
check its effective address (R111; `BunCompletes`). -/
def Obligations.OperandOpsRaiseOutOfRange : Prop :=
  ∀ (p : Word) (s : State),
    (64 ≤ p.toNat →
      (∀ i ∈ [Instr.and p, .add p, .sub p, .lda p, .isz p],
        exec i s = .next (s.raised s.ir p.toNat .dataRead)) ∧
      exec (.sta p) s = .next (s.raised s.ir p.toNat .dataWrite) ∧
      (∀ i ∈ [Instr.andI p, .addI p, .subI p, .ldaI p, .staI p, .bunI p, .iszI p],
        exec i s = .next (s.raised s.ir p.toNat .pointerRead))) ∧
    (p.toNat < 64 → 64 ≤ (s.mem.read p.toNat).toNat →
      (∀ i ∈ [Instr.andI p, .addI p, .subI p, .ldaI p, .iszI p],
        exec i s = .next (s.raised s.ir (s.mem.read p.toNat).toNat .dataRead)) ∧
      exec (.staI p) s = .next (s.raised s.ir (s.mem.read p.toNat).toNat .dataWrite))

/-! ### Whole-machine rules -/

/-- A store into the next instruction's opcode word is what the very next cycle fetches and executes
(R54, R158). -/
def Obligations.StoreIsSeenByNextFetch : Prop :=
  ∀ (s : State) (op ea : Word), s.Fetches op →
    (op = 0x08#8 ∧ effectiveAddress .direct s.field s = .ok ea ∨
     op = 0x88#8 ∧ effectiveAddress .indirect s.field s = .ok ea) →
    ea.toNat = s.pc + 2 → s.pc < 62 →
    ∃ t, step s = .next t ∧ t.status = .running ∧ t.pc = s.pc + 2 ∧ t.mem.read t.pc = s.ac ∧
      ∃ u, step t = .next u ∧ u.ir = s.ac

/-- A BUN to its own address is a one-instruction infinite loop, and the machine admits the infinite run
(R94, R111). -/
def Obligations.BranchToItselfRunsForever : Prop :=
  ∀ s : State, s.Fetches 0x10#8 → s.pc < 63 → s.field.toNat = s.pc →
    RunsForever s ∧ ∀ k, Reaches (k + 1) s { s with ir := 0x10#8 }

/-- Every run, from every state, comes to the normal end, or to the error end, or goes on for ever, and to
exactly one of these (R94, R146). That the state Faulted is one of its own is the spec's own decision D6 and
that an ended run goes no further D10; the model's step to a next state on OutOfRange is log entry 4 and its
step to the same state after the end log entry 6. -/
def Obligations.RunHasExactlyOneResult : Prop :=
  ∀ s : State,
    (HaltsFrom s ∨ FaultsFrom s ∨ RunsForever s) ∧
    ¬ (HaltsFrom s ∧ FaultsFrom s) ∧ ¬ (HaltsFrom s ∧ RunsForever s) ∧ ¬ (FaultsFrom s ∧ RunsForever s)

/-- When ISZ's result is zero the next cycle fetches the word three after ISZ's opcode as an opcode, whatever
the instruction between is: the address field of a two-word instruction at +2 among the rest (R155). The
advance of 3 is the spec's own decision D3 (log entry 2). -/
def Obligations.IszSkipLandsOnTheThirdWord : Prop :=
  ∀ (s : State) (op ea : Word), s.Fetches op → s.pc + 3 < 64 →
    (op = 0x20#8 ∧ effectiveAddress .direct s.field s = .ok ea ∨
     op = 0xA0#8 ∧ effectiveAddress .indirect s.field s = .ok ea) →
    ea.toNat < 64 → s.mem.read ea.toNat = 0xFF#8 → ea.toNat ≠ s.pc + 3 →
    ∃ t, step s = .next t ∧ t.pc = s.pc + 3 ∧
      ∃ u, step t = .next u ∧ u.ir = s.mem.read (s.pc + 3)

/-! ### The ended run as the host reads it, and the machine at other parameters -/

/-- The host reads everything of a Halted core: run state, record, PC, AC, IR and all 64 words (R57, R145), and of
a Faulted one too (the spec's own decisions D2 and D6 for memory, run state and record, log entry 7; for PC, AC
and IR of a Faulted core the model's choice, log entry 14); and the result of a run is a normal end exactly in
Halted and an error end exactly in Faulted (R146). -/
def Obligations.HostReadsTheEndOfARun : Prop :=
  ∀ s : State,
    (s.status ≠ .running →
      hostStatus s = some (s.status, s.fault) ∧
      hostRegisters s = some { pc := s.pc, ac := s.ac, ir := s.ir } ∧
      (∀ a, a < 64 → hostRead a s = some (s.mem.read a)) ∧
      ∃ ws, hostReadback s = some ws ∧ ws.length = 64 ∧ ∀ a, a < 64 → ws[a]? = some (s.mem.read a)) ∧
    (s.status = .running → hostRegisters s = none) ∧
    (runResult s = .normalEnd ↔ s.status = .halted) ∧
    (runResult s = .errorEnd ↔ s.status = .faulted) ∧
    (runResult s = .stillRunning ↔ s.status = .running)

/-- At every value of the two parameters (R8) the whole cycle of ISZ, both forms, is that of R112 with the two
advances of ISZ_ADVANCE, and the whole cycle of a reserved code is a one-word no-op at nop and refused at
refuse (R123 to R125). In ISZ's OutOfRange clauses the state Faulted, its record and what it keeps are the
spec's own decisions D4 to D6 in R137 (log entry 4). -/
def Obligations.IszAndReservedAtEveryConfiguration : Prop :=
  ∀ cfg : Config,
    (OperandCycleOf (stepAt cfg) 0x20#8 0xA0#8 fun s op ea t =>
      let r := BitVec.ofNat 8 ((s.mem.read ea.toNat).toNat + 1)
      (ea.toNat < 64 →
        MemDiffersAt ea.toNat r s t ∧ SameAcAndStatus s t ∧ t.ir = op ∧
        t.pc = s.pc + if r = 0x00#8 then cfg.iszAdvance.skip else cfg.iszAdvance.noSkip) ∧
      (64 ≤ ea.toNat → t = s.raised op ea.toNat .dataRead)) ∧
    (∀ (s : State) (op : Word), op ∈ [0x44#8, 0x48#8, 0x50#8] → s.Fetches op →
      (cfg.reservedOpMode = .nop → stepAt cfg s = .next { s with ir := op, pc := s.pc + 1 }) ∧
      (cfg.reservedOpMode = .refuse → stepAt cfg s = .refused (.reservedOpcode op)))

/-- A cycle that fetches neither ISZ nor a reserved code, one whose fetch fails and one of a core that is not
Running are the same at every value of the parameters; and at the defaults, which are (2, 3) and nop (R8),
every operation, every step and every run is the model's own. -/
def Obligations.OtherOpcodesIgnoreConfiguration : Prop :=
  (∀ (cfg : Config) (s : State),
    s.status ≠ .running ∨ 64 ≤ s.pc ∨ s.mem.read s.pc ∉ [0x20#8, 0xA0#8, 0x44#8, 0x48#8, 0x50#8] →
    stepAt cfg s = step s) ∧
  (Config.default.iszAdvance.noSkip = 2 ∧ Config.default.iszAdvance.skip = 3 ∧
    Config.default.reservedOpMode = .nop) ∧
  (∀ (i : Instr) (s : State), execAt Config.default i s = exec i s) ∧
  (∀ (k : Nat) (s : State), stepAt Config.default s = step s ∧
    Host.Core.run (coreAt Config.default) k s = Host.Core.run Sys2Proof.core k s)
end

