-- ==== Sys2Proof/Laws/State.lean ====
section
/-! SUPPORT. The small lemmas of the state: one for each field of each named update. -/

namespace Sys2Proof.Machine

@[simp] theorem takeOutOfRange_mem (e : FaultRecord) (s : State) : (takeOutOfRange e s).mem = s.mem := rfl
@[simp] theorem takeOutOfRange_ac (e : FaultRecord) (s : State) : (takeOutOfRange e s).ac = s.ac := rfl
@[simp] theorem takeOutOfRange_pc (e : FaultRecord) (s : State) : (takeOutOfRange e s).pc = s.pc := rfl
@[simp] theorem takeOutOfRange_ir (e : FaultRecord) (s : State) : (takeOutOfRange e s).ir = s.ir := rfl
@[simp] theorem takeOutOfRange_status (e : FaultRecord) (s : State) :
    (takeOutOfRange e s).status = .faulted := rfl
@[simp] theorem takeOutOfRange_fault (e : FaultRecord) (s : State) : (takeOutOfRange e s).fault = some e := rfl

@[simp] theorem raised_mem (s : State) (ir : Word) (a : Nat) (k : AccessKind) : (s.raised ir a k).mem = s.mem := rfl
@[simp] theorem raised_ac (s : State) (ir : Word) (a : Nat) (k : AccessKind) : (s.raised ir a k).ac = s.ac := rfl
@[simp] theorem raised_pc (s : State) (ir : Word) (a : Nat) (k : AccessKind) : (s.raised ir a k).pc = s.pc := rfl
@[simp] theorem raised_ir (s : State) (ir : Word) (a : Nat) (k : AccessKind) : (s.raised ir a k).ir = ir := rfl
@[simp] theorem raised_status (s : State) (ir : Word) (a : Nat) (k : AccessKind) :
    (s.raised ir a k).status = .faulted := rfl
@[simp] theorem raised_fault (s : State) (ir : Word) (a : Nat) (k : AccessKind) :
    (s.raised ir a k).fault = some { addr := a, kind := k } := rfl

@[simp] theorem reset_mem : State.reset.mem = [] := rfl
@[simp] theorem reset_ac : State.reset.ac = 0x00#8 := rfl
@[simp] theorem reset_pc : State.reset.pc = 0 := rfl
@[simp] theorem reset_ir : State.reset.ir = 0x00#8 := rfl
@[simp] theorem reset_status : State.reset.status = .running := rfl
@[simp] theorem reset_fault : State.reset.fault = none := rfl

@[simp] theorem boot_mem (image : List Word) : (State.boot image).mem = Memory.ofWords 0 image := rfl
@[simp] theorem boot_ac (image : List Word) : (State.boot image).ac = 0x00#8 := rfl
@[simp] theorem boot_pc (image : List Word) : (State.boot image).pc = 0 := rfl
@[simp] theorem boot_ir (image : List Word) : (State.boot image).ir = 0x00#8 := rfl
@[simp] theorem boot_status (image : List Word) : (State.boot image).status = .running := rfl
@[simp] theorem boot_fault (image : List Word) : (State.boot image).fault = none := rfl

@[simp] theorem withFetchWord_mem (s : State) (n w : Nat) :
    (s.withFetchWord n w).mem = (s.mem.place s.pc (tableWord 0 n w)).place (s.pc + 1) (tableWord 1 n w) := by
  cases h : s.status <;> simp [State.withFetchWord, h]
@[simp] theorem withFetchWord_ac (s : State) (n w : Nat) : (s.withFetchWord n w).ac = s.ac := by
  cases h : s.status <;> simp [State.withFetchWord, h]
@[simp] theorem withFetchWord_pc (s : State) (n w : Nat) : (s.withFetchWord n w).pc = s.pc := by
  cases h : s.status <;> simp [State.withFetchWord, h]
@[simp] theorem withFetchWord_ir (s : State) (n w : Nat) : (s.withFetchWord n w).ir = s.ir := by
  cases h : s.status <;> simp [State.withFetchWord, h]
@[simp] theorem withFetchWord_status (s : State) (n w : Nat) : (s.withFetchWord n w).status = .running := by
  cases h : s.status <;> simp [State.withFetchWord, h]

/-- An outcome that answers a next state answers one (the form every cycle's inversion ends in). -/
@[simp] theorem raise_eq_next (e : FaultRecord) (s t : State) :
    raise e s = .next t ↔ t = takeOutOfRange e s := by
  simp [raise, eq_comm]

end Sys2Proof.Machine
end

