-- ==== Sys2Proof/Laws/Memory.lean ====
section
/-! SUPPORT. The laws of memory: what a read gives after a write, and that every memory operation keeps
the canonical form. -/

namespace Sys2Proof.Machine

@[simp] theorem Memory.read_nil (a : Nat) : Memory.read [] a = unlistedWord := rfl

theorem Memory.read_cons (c : Host.Cell) (m : Memory) (a : Nat) :
    Memory.read (c :: m) a = if c.1 = a then c.2 else Memory.read m a := rfl

theorem Memory.read_insert (m : Memory) (a : Nat) (v : Word) (b : Nat) (h : ∀ c ∈ m, c.1 ≠ a) :
    (Memory.insert a v m).read b = if b = a then v else m.read b := by
  induction m with
  | nil => simp [Memory.insert, Memory.read, eq_comm]
  | cons c m ih =>
    have hc : c.1 ≠ a := h c (by simp)
    have hm := ih (fun d hd => h d (by simp [hd]))
    by_cases hlt : a < c.1
    · simp [Memory.insert, hlt, Memory.read_cons, eq_comm]
    · simp only [Memory.insert, hlt, if_false, Memory.read_cons, hm]
      by_cases hb : b = a
      · subst hb; simp [hc]
      · simp [hb]

theorem Memory.not_mem_erase (m : Memory) (a : Nat) : ∀ c ∈ Memory.erase a m, c.1 ≠ a := by
  intro c hc
  simpa [Memory.erase] using (List.mem_filter.mp hc).2

theorem Memory.read_erase (m : Memory) (a b : Nat) :
    (Memory.erase a m).read b = if b = a then unlistedWord else m.read b := by
  induction m with
  | nil => simp [Memory.erase]
  | cons c m ih =>
    by_cases hc : c.1 = a
    · have : Memory.erase a (c :: m) = Memory.erase a m := by simp [Memory.erase, hc]
      rw [this, ih]
      by_cases hb : b = a
      · simp [hb]
      · have : c.1 ≠ b := fun h => hb (by omega)
        simp [hb, Memory.read_cons, this]
    · have : Memory.erase a (c :: m) = c :: Memory.erase a m := by simp [Memory.erase, hc]
      rw [this, Memory.read_cons, ih, Memory.read_cons]
      by_cases hb : b = a
      · subst hb; simp [hc]
      · simp [hb]

/-- A read after a write gives the written word at its address and the old word everywhere else. -/
@[simp] theorem Memory.read_write (m : Memory) (a : Nat) (v : Word) (b : Nat) :
    (m.write a v).read b = if b = a then v else m.read b := by
  unfold Memory.write
  split
  · next h => rw [Memory.read_erase, h]
  · rw [Memory.read_insert _ _ _ _ (Memory.not_mem_erase m a), Memory.read_erase]
    split <;> rfl

theorem Memory.wfFrom_mono {lo lo' : Nat} {m : Memory} (h : m.wfFrom lo = true) (hle : lo' ≤ lo) :
    m.wfFrom lo' = true := by
  cases m with
  | nil => rfl
  | cons c m =>
    simp only [Memory.wfFrom, Bool.and_eq_true, decide_eq_true_eq] at h ⊢
    exact ⟨⟨⟨by omega, h.1.1.2⟩, h.1.2⟩, h.2⟩

theorem Memory.wfFrom_erase {lo : Nat} {m : Memory} (a : Nat) (h : m.wfFrom lo = true) :
    (Memory.erase a m).wfFrom lo = true := by
  induction m generalizing lo with
  | nil => rfl
  | cons c m ih =>
    simp only [Memory.wfFrom, Bool.and_eq_true, decide_eq_true_eq] at h
    by_cases hc : c.1 = a
    · have : Memory.erase a (c :: m) = Memory.erase a m := by simp [Memory.erase, hc]
      exact this ▸ Memory.wfFrom_mono (ih h.2) (by omega)
    · have : Memory.erase a (c :: m) = c :: Memory.erase a m := by simp [Memory.erase, hc]
      simp only [this, Memory.wfFrom, Bool.and_eq_true, decide_eq_true_eq]
      exact ⟨h.1, ih h.2⟩

theorem Memory.wfFrom_insert {lo : Nat} {m : Memory} {a : Nat} {v : Word} (h : m.wfFrom lo = true)
    (hm : ∀ c ∈ m, c.1 ≠ a) (hlo : lo ≤ a) (ha : validAddress a = true) (hv : v ≠ unlistedWord) :
    (Memory.insert a v m).wfFrom lo = true := by
  induction m generalizing lo with
  | nil => simp [Memory.insert, Memory.wfFrom, hlo, ha, hv]
  | cons c m ih =>
    simp only [Memory.wfFrom, Bool.and_eq_true, decide_eq_true_eq] at h
    have hc : c.1 ≠ a := hm c (by simp)
    by_cases hlt : a < c.1
    · simp only [Memory.insert, hlt, if_true, Memory.wfFrom, Bool.and_eq_true, decide_eq_true_eq]
      exact ⟨⟨⟨hlo, ha⟩, hv⟩, ⟨⟨by omega, h.1.1.2⟩, h.1.2⟩, h.2⟩
    · simp only [Memory.insert, hlt, if_false, Memory.wfFrom, Bool.and_eq_true, decide_eq_true_eq]
      exact ⟨h.1, ih h.2 (fun d hd => hm d (by simp [hd])) (by omega)⟩

/-- A write to an address that exists keeps the canonical form. -/
theorem Memory.wf_write {m : Memory} {a : Nat} (v : Word) (h : m.wf = true) (ha : validAddress a = true) :
    (m.write a v).wf = true := by
  unfold Memory.write
  split
  · exact Memory.wfFrom_erase a h
  · next hv =>
    exact Memory.wfFrom_insert (Memory.wfFrom_erase a h) (Memory.not_mem_erase m a) (Nat.zero_le a) ha hv

/-- Placing a word keeps the canonical form at every address. -/
theorem Memory.wf_place {m : Memory} (a : Nat) (v : Word) (h : m.wf = true) : (m.place a v).wf = true := by
  unfold Memory.place
  split
  · exact Memory.wf_write v h ‹_›
  · exact h

theorem Memory.wfFrom_ofWords (ws : List Word) (a : Nat) (h : a + ws.length ≤ 64) :
    (Memory.ofWords a ws).wfFrom a = true := by
  induction ws generalizing a with
  | nil => rfl
  | cons w ws ih =>
    simp only [List.length_cons] at h
    have hrest := ih (a + 1) (by omega)
    by_cases hw : w = unlistedWord
    · simpa [Memory.ofWords, hw] using Memory.wfFrom_mono hrest (Nat.le_succ a)
    · have ha : a < 64 := by omega
      simp [Memory.ofWords, hw, Memory.wfFrom, validAddress, ha, hrest]

/-- A loaded image is in canonical form. -/
theorem Memory.wf_ofWords {image : List Word} (h : image.length = 64) : (Memory.ofWords 0 image).wf = true :=
  Memory.wfFrom_ofWords image 0 (by omega)

theorem Memory.read_of_wfFrom {lo : Nat} {m : Memory} (h : m.wfFrom lo = true) {a : Nat} (ha : a < lo) :
    m.read a = unlistedWord := by
  induction m generalizing lo with
  | nil => rfl
  | cons c m ih =>
    simp only [Memory.wfFrom, Bool.and_eq_true, decide_eq_true_eq] at h
    have : c.1 ≠ a := by omega
    rw [Memory.read_cons, if_neg this]
    exact ih h.2 (by omega)

/-- No word is listed outside the addresses that exist. -/
theorem Memory.read_past_end {m : Memory} (h : m.wf = true) {a : Nat} (ha : 64 ≤ a) :
    m.read a = unlistedWord := by
  have go : ∀ (m : Memory) lo, m.wfFrom lo = true → m.read a = unlistedWord := by
    intro m
    induction m with
    | nil => intro _ _; rfl
    | cons c m ih =>
      intro lo h
      simp only [Memory.wfFrom, Bool.and_eq_true, decide_eq_true_eq, validAddress] at h
      have : c.1 ≠ a := by omega
      rw [Memory.read_cons, if_neg this]
      exact ih _ h.2
  exact go m 0 h

end Sys2Proof.Machine
end

