-- ==== Sys2Proof/Laws/Access.lean ====
section
/-! SUPPORT. One lemma for each shared access: the range-checked read and write, the operand forms and the
fetch, each with everything it can answer. -/

namespace Sys2Proof.Machine

theorem memRead_valid {a : Nat} (k : AccessKind) (s : State) (h : a < 64) :
    memRead a k s = .ok (s.mem.read a) := by simp [memRead, validAddress, h]

theorem memRead_invalid {a : Nat} (k : AccessKind) (s : State) (h : 64 ≤ a) :
    memRead a k s = .error { addr := a, kind := k } := by simp [memRead, validAddress, h]

/-- A read answers the word of an address that exists, or the OutOfRange of one that does not. -/
theorem memRead_cases (a : Nat) (k : AccessKind) (s : State) :
    (a < 64 ∧ memRead a k s = .ok (s.mem.read a)) ∨
    (64 ≤ a ∧ memRead a k s = .error { addr := a, kind := k }) :=
  (Nat.lt_or_ge a 64).elim (fun h => .inl ⟨h, memRead_valid k s h⟩) (fun h => .inr ⟨h, memRead_invalid k s h⟩)

theorem memWrite_valid {a : Nat} (v : Word) (s : State) (h : a < 64) :
    memWrite a v s = .ok { s with mem := s.mem.write a v } := by simp [memWrite, validAddress, h]

theorem memWrite_invalid {a : Nat} (v : Word) (s : State) (h : 64 ≤ a) :
    memWrite a v s = .error { addr := a, kind := .dataWrite } := by simp [memWrite, validAddress, h]

/-- A write answers the state with that word written, or the OutOfRange of an address that does not exist. -/
theorem memWrite_cases (a : Nat) (v : Word) (s : State) :
    (a < 64 ∧ memWrite a v s = .ok { s with mem := s.mem.write a v }) ∨
    (64 ≤ a ∧ memWrite a v s = .error { addr := a, kind := .dataWrite }) :=
  (Nat.lt_or_ge a 64).elim (fun h => .inl ⟨h, memWrite_valid v s h⟩) (fun h => .inr ⟨h, memWrite_invalid v s h⟩)

/-- The effective address does not depend on AC, PC, IR, the run state or the fault record. -/
theorem effectiveAddress_congr {s t : State} (mode : AddrMode) (p : Word) (h : t.mem = s.mem) :
    effectiveAddress mode p t = effectiveAddress mode p s := by
  cases mode <;> simp [effectiveAddress, memRead, h]

theorem operandValue_congr {s t : State} (mode : AddrMode) (p : Word) (h : t.mem = s.mem) :
    operandValue mode p t = operandValue mode p s := by
  simp [operandValue, effectiveAddress_congr mode p h, memRead, h]

/-- What the Addressing Resolver can answer: an effective address, or the OutOfRange of the pointer. -/
theorem effectiveAddress_cases (mode : AddrMode) (p : Word) (s : State) :
    (∃ ea, effectiveAddress mode p s = .ok ea ∧ (mode = .indirect → p.toNat < 64 ∧ ea = s.mem.read p.toNat) ∧
      (mode = .direct → ea = p)) ∨
    (mode = .indirect ∧ 64 ≤ p.toNat ∧
      effectiveAddress mode p s = .error { addr := p.toNat, kind := .pointerRead }) := by
  cases mode with
  | direct => exact .inl ⟨p, rfl, by simp, fun _ => rfl⟩
  | indirect =>
    obtain ⟨h, hr⟩ | ⟨h, hr⟩ := memRead_cases p.toNat .pointerRead s
    · exact .inl ⟨_, hr, fun _ => ⟨h, rfl⟩, by simp⟩
    · exact .inr ⟨rfl, h, hr⟩

/-- What the fetch can answer: an instruction with IR written, or one of its two OutOfRange states. -/
theorem fetch_cases (s : State) :
    (64 ≤ s.pc ∧ fetch s = .error (takeOutOfRange { addr := s.pc, kind := .fetch } s)) ∨
    (s.pc < 64 ∧ ∃ i, decodeOpcode (s.mem.read s.pc) = .oneWord i ∧
      fetch s = .ok (i, { s with ir := s.mem.read s.pc })) ∨
    (s.pc < 63 ∧ ∃ o ind, decodeOpcode (s.mem.read s.pc) = .operand o ind ∧
      fetch s = .ok (operandInstr o ind (s.mem.read (s.pc + 1)), { s with ir := s.mem.read s.pc })) ∨
    (s.pc = 63 ∧ ∃ o ind, decodeOpcode (s.mem.read s.pc) = .operand o ind ∧
      fetch s = .error (takeOutOfRange { addr := 64, kind := .operandFetch } { s with ir := s.mem.read s.pc })) := by
  by_cases hpc : s.pc < 64
  · cases hop : decodeOpcode (s.mem.read s.pc) with
    | oneWord i => exact .inr (.inl ⟨hpc, i, rfl, by simp [fetch, memRead_valid _ s hpc, hop]⟩)
    | operand o ind =>
      by_cases h63 : s.pc + 1 < 64
      · exact .inr (.inr (.inl ⟨by omega, o, ind, rfl,
          by simp [fetch, memRead_valid _ s hpc, hop, memRead_valid _ s h63]⟩))
      · have h : s.pc = 63 := by omega
        have he : memRead (s.pc + 1) .operandFetch s = .error { addr := 64, kind := .operandFetch } := by
          rw [memRead_invalid _ s (Nat.le_of_not_lt h63), h]
        exact .inr (.inr (.inr ⟨h, o, ind, rfl, by simp [fetch, memRead_valid _ s hpc, hop, he]⟩))
  · have h := Nat.le_of_not_lt hpc
    exact .inl ⟨h, by simp [fetch, memRead_invalid _ s h]⟩

end Sys2Proof.Machine
end

