-- ==== Sys2Proof/Laws/Decode.lean ====
section
/-! SUPPORT. What the decoder can answer, said once over the 256 opcode words. -/

namespace Sys2Proof.Machine

theorem decodeOpcode_undef : ∀ op : Word, op ∉ definedCodes → decodeOpcode op = .oneWord (.undef op) := by
  decide

/-- Every opcode word either takes an address field, and is then the first word of its instruction's
encoding, or is the whole encoding of a well-formed instruction. -/
theorem decodeOpcode_cases (op : Word) :
    (op ∈ operandCodes ∧ ∃ o indirect, decodeOpcode op = .operand o indirect ∧
      ∀ p, encode (operandInstr o indirect p) = [op, p] ∧ (operandInstr o indirect p).wf = true) ∨
    (op ∉ operandCodes ∧ ∃ i, decodeOpcode op = .oneWord i ∧ encode i = [op] ∧ i.wf = true) := by
  by_cases h : op ∈ definedCodes
  · rcases List.mem_append.mp h with ho | ho
    · refine .inl ⟨ho, ?_⟩
      simp only [operandCodes, List.mem_cons, List.not_mem_nil, or_false] at ho
      rcases ho with rfl | rfl | rfl | rfl | rfl | rfl | rfl | rfl | rfl | rfl | rfl | rfl | rfl | rfl <;>
        exact ⟨_, _, rfl, fun _ => ⟨rfl, rfl⟩⟩
    · simp only [List.mem_cons, List.not_mem_nil, or_false] at ho
      rcases ho with rfl | rfl | rfl | rfl | rfl | rfl <;> exact .inr ⟨by decide, _, rfl, rfl, rfl⟩
  · refine .inr ⟨fun ho => h (List.mem_append_left _ ho), .undef op, decodeOpcode_undef op h, rfl, ?_⟩
    simpa [Instr.wf] using h

end Sys2Proof.Machine
end

