-- ==== Sys2Proof/Laws/Meanings.lean ====
section
/-! SUPPORT. One inversion lemma for each shared meaning, and one for the step: if it answers next t, then
one of these cases holds. Provers cite these instead of unfolding. -/

namespace Sys2Proof.Machine

/-- A value-consuming instruction at a known effective address. -/
theorem valueOp_at {f : Word → Word → Word} {mode : AddrMode} {p ea : Word} {s : State}
    (h : effectiveAddress mode p s = .ok ea) :
    valueOp f mode p s =
      if ea.toNat < 64 then .next { s with ac := f s.ac (s.mem.read ea.toNat), pc := s.pc + 2 }
      else raise { addr := ea.toNat, kind := .dataRead } s := by
  obtain ⟨hlt, hr⟩ | ⟨hge, hr⟩ := memRead_cases ea.toNat .dataRead s
  · simp [valueOp, operandValue, h, hr, hlt]
  · simp [valueOp, operandValue, h, hr, Nat.not_lt.mpr hge]

/-- A value-consuming instruction whose pointer does not exist. -/
theorem valueOp_error {f : Word → Word → Word} {mode : AddrMode} {p : Word} {s : State} {e : FaultRecord}
    (h : effectiveAddress mode p s = .error e) : valueOp f mode p s = raise e s := by
  simp [valueOp, operandValue, h]

/-- A store at a known effective address. -/
theorem storeOp_at {mode : AddrMode} {p ea : Word} {s : State} (h : effectiveAddress mode p s = .ok ea) :
    storeOp mode p s =
      if ea.toNat < 64 then .next { s with mem := s.mem.write ea.toNat s.ac, pc := s.pc + 2 }
      else raise { addr := ea.toNat, kind := .dataWrite } s := by
  obtain ⟨hlt, hw⟩ | ⟨hge, hw⟩ := memWrite_cases ea.toNat s.ac s
  · simp [storeOp, h, hw, hlt]
  · simp [storeOp, h, hw, Nat.not_lt.mpr hge]

theorem storeOp_error {mode : AddrMode} {p : Word} {s : State} {e : FaultRecord}
    (h : effectiveAddress mode p s = .error e) : storeOp mode p s = raise e s := by
  simp [storeOp, h]

/-- A branch to a known effective address. -/
theorem branchOp_at {mode : AddrMode} {p ea : Word} {s : State} (h : effectiveAddress mode p s = .ok ea) :
    branchOp mode p s = .next { s with pc := ea.toNat } := by
  simp [branchOp, h]

theorem branchOp_error {mode : AddrMode} {p : Word} {s : State} {e : FaultRecord}
    (h : effectiveAddress mode p s = .error e) : branchOp mode p s = raise e s := by
  simp [branchOp, h]

/-- An increment-and-skip at a known effective address. -/
theorem incrementSkipOp_at {cfg : Config} {mode : AddrMode} {p ea : Word} {s : State}
    (h : effectiveAddress mode p s = .ok ea) :
    incrementSkipOp cfg mode p s =
      if ea.toNat < 64 then
        .next { s with mem := s.mem.write ea.toNat (add8 (s.mem.read ea.toNat) 0x01#8),
                       pc := s.pc + iszNetAdvance cfg (add8 (s.mem.read ea.toNat) 0x01#8) }
      else raise { addr := ea.toNat, kind := .dataRead } s := by
  obtain ⟨hlt, hr⟩ | ⟨hge, hr⟩ := memRead_cases ea.toNat .dataRead s
  · simp [incrementSkipOp, h, hr, hlt, memWrite_valid _ s hlt]
  · simp [incrementSkipOp, h, hr, Nat.not_lt.mpr hge]

theorem incrementSkipOp_error {cfg : Config} {mode : AddrMode} {p : Word} {s : State} {e : FaultRecord}
    (h : effectiveAddress mode p s = .error e) : incrementSkipOp cfg mode p s = raise e s := by
  simp [incrementSkipOp, h]

/-- What a value-consuming instruction can answer. -/
theorem valueOp_cases {f : Word → Word → Word} {mode : AddrMode} {p : Word} {s t : State}
    (h : valueOp f mode p s = .next t) :
    (∃ ea, effectiveAddress mode p s = .ok ea ∧ ea.toNat < 64 ∧
      t = { s with ac := f s.ac (s.mem.read ea.toNat), pc := s.pc + 2 }) ∨
    (∃ ea, effectiveAddress mode p s = .ok ea ∧ 64 ≤ ea.toNat ∧
      t = takeOutOfRange { addr := ea.toNat, kind := .dataRead } s) ∨
    (∃ e, effectiveAddress mode p s = .error e ∧ t = takeOutOfRange e s) := by
  cases hea : effectiveAddress mode p s with
  | error e => exact .inr (.inr ⟨e, rfl, by simpa [valueOp_error hea] using h⟩)
  | ok ea =>
    rw [valueOp_at hea] at h
    by_cases hlt : ea.toNat < 64
    · exact .inl ⟨ea, rfl, hlt, by simpa [hlt] using h.symm⟩
    · exact .inr (.inl ⟨ea, rfl, Nat.le_of_not_lt hlt, by simpa [hlt] using h⟩)

/-- What a store can answer. -/
theorem storeOp_cases {mode : AddrMode} {p : Word} {s t : State} (h : storeOp mode p s = .next t) :
    (∃ ea, effectiveAddress mode p s = .ok ea ∧ ea.toNat < 64 ∧
      t = { s with mem := s.mem.write ea.toNat s.ac, pc := s.pc + 2 }) ∨
    (∃ ea, effectiveAddress mode p s = .ok ea ∧ 64 ≤ ea.toNat ∧
      t = takeOutOfRange { addr := ea.toNat, kind := .dataWrite } s) ∨
    (∃ e, effectiveAddress mode p s = .error e ∧ t = takeOutOfRange e s) := by
  cases hea : effectiveAddress mode p s with
  | error e => exact .inr (.inr ⟨e, rfl, by simpa [storeOp_error hea] using h⟩)
  | ok ea =>
    rw [storeOp_at hea] at h
    by_cases hlt : ea.toNat < 64
    · exact .inl ⟨ea, rfl, hlt, by simpa [hlt] using h.symm⟩
    · exact .inr (.inl ⟨ea, rfl, Nat.le_of_not_lt hlt, by simpa [hlt] using h⟩)

/-- What a branch can answer. -/
theorem branchOp_cases {mode : AddrMode} {p : Word} {s t : State} (h : branchOp mode p s = .next t) :
    (∃ ea, effectiveAddress mode p s = .ok ea ∧ t = { s with pc := ea.toNat }) ∨
    (∃ e, effectiveAddress mode p s = .error e ∧ t = takeOutOfRange e s) := by
  cases hea : effectiveAddress mode p s with
  | error e => exact .inr ⟨e, rfl, by simpa [branchOp_error hea] using h⟩
  | ok ea => exact .inl ⟨ea, rfl, by simpa [branchOp_at hea] using h.symm⟩

/-- What an increment-and-skip can answer. -/
theorem incrementSkipOp_cases {cfg : Config} {mode : AddrMode} {p : Word} {s t : State}
    (h : incrementSkipOp cfg mode p s = .next t) :
    (∃ ea, effectiveAddress mode p s = .ok ea ∧ ea.toNat < 64 ∧
      t = { s with mem := s.mem.write ea.toNat (add8 (s.mem.read ea.toNat) 0x01#8),
                   pc := s.pc + iszNetAdvance cfg (add8 (s.mem.read ea.toNat) 0x01#8) }) ∨
    (∃ ea, effectiveAddress mode p s = .ok ea ∧ 64 ≤ ea.toNat ∧
      t = takeOutOfRange { addr := ea.toNat, kind := .dataRead } s) ∨
    (∃ e, effectiveAddress mode p s = .error e ∧ t = takeOutOfRange e s) := by
  cases hea : effectiveAddress mode p s with
  | error e => exact .inr (.inr ⟨e, rfl, by simpa [incrementSkipOp_error hea] using h⟩)
  | ok ea =>
    rw [incrementSkipOp_at hea] at h
    by_cases hlt : ea.toNat < 64
    · exact .inl ⟨ea, rfl, hlt, by simpa [hlt] using h.symm⟩
    · exact .inr (.inl ⟨ea, rfl, Nat.le_of_not_lt hlt, by simpa [hlt] using h⟩)

/-- What a reserved code can answer, at any configuration. -/
theorem reservedOp_cases {cfg : Config} {op : Word} {s : State} :
    (cfg.reservedOpMode = .nop ∧ reservedOp cfg op s = .next { s with pc := s.pc + 1 }) ∨
    (cfg.reservedOpMode = .refuse ∧ reservedOp cfg op s = .refused (.reservedOpcode op)) := by
  cases h : cfg.reservedOpMode <;> simp [reservedOp, noOp, h]

/-- The cycle of a Running core is its fetch and then the operation. -/
theorem cycle_of_running {run : Instr → State → Host.Outcome State Fault Refusal} {s : State}
    (h : s.status = .running) :
    cycle run s = match fetch s with
      | .error t => .next t
      | .ok (i, t) => run i t := by
  cases s
  cases h
  rfl

/-- The cycle of a core that is not Running changes nothing. -/
theorem cycle_of_not_running {run : Instr → State → Host.Outcome State Fault Refusal} {s : State}
    (h : s.status ≠ .running) : cycle run s = .next s := by
  unfold cycle
  split
  · rfl
  · rfl
  · exact absurd ‹_› h

/-- What a cycle can answer, whatever operations it runs: a core that is not Running stays as it is; a Running
core's fetch raises, or its instruction is run in the state with IR written. -/
theorem cycle_cases {run : Instr → State → Host.Outcome State Fault Refusal} {s t : State}
    (h : cycle run s = .next t) :
    (s.status ≠ .running ∧ t = s) ∨
    (s.status = .running ∧ fetch s = .error t) ∨
    (s.status = .running ∧ s.pc < 64 ∧ ∃ i, fetch s = .ok (i, { s with ir := s.mem.read s.pc }) ∧
      run i { s with ir := s.mem.read s.pc } = .next t) := by
  by_cases hs : s.status = .running
  · rw [cycle_of_running hs] at h
    obtain ⟨-, hf⟩ | ⟨hpc, i, -, hf⟩ | ⟨hpc, o, ind, -, hf⟩ | ⟨-, o, ind, -, hf⟩ := fetch_cases s
    · exact .inr (.inl ⟨hs, by simpa [hf] using h⟩)
    · exact .inr (.inr ⟨hs, hpc, i, hf, by simpa [hf] using h⟩)
    · exact .inr (.inr ⟨hs, by omega, _, hf, by simpa [hf] using h⟩)
    · exact .inr (.inl ⟨hs, by simpa [hf] using h⟩)
  · exact .inl ⟨hs, by simpa [cycle_of_not_running hs, eq_comm] using h⟩

theorem step_of_running {s : State} (h : s.status = .running) :
    step s = match fetch s with
      | .error t => .next t
      | .ok (i, t) => exec i t := cycle_of_running h

/-- What a step can answer. -/
theorem step_cases {s t : State} (h : step s = .next t) :
    (s.status ≠ .running ∧ t = s) ∨
    (s.status = .running ∧ fetch s = .error t) ∨
    (s.status = .running ∧ s.pc < 64 ∧ ∃ i, fetch s = .ok (i, { s with ir := s.mem.read s.pc }) ∧
      exec i { s with ir := s.mem.read s.pc } = .next t) := cycle_cases h

end Sys2Proof.Machine
end

