-- ==== Sys2Proof/Laws/Exec.lean ====
section
/-! SUPPORT. The dispatcher, one equation for each instruction, the six shapes an instruction has, and the
step from the opcode word it fetches. -/

namespace Sys2Proof.Machine

theorem exec_and (p : Word) (s : State) : exec (.and p) s = valueOp and8 .direct p s := rfl
theorem exec_andI (p : Word) (s : State) : exec (.andI p) s = valueOp and8 .indirect p s := rfl
theorem exec_add (p : Word) (s : State) : exec (.add p) s = valueOp add8 .direct p s := rfl
theorem exec_addI (p : Word) (s : State) : exec (.addI p) s = valueOp add8 .indirect p s := rfl
theorem exec_sub (p : Word) (s : State) : exec (.sub p) s = valueOp sub8 .direct p s := rfl
theorem exec_subI (p : Word) (s : State) : exec (.subI p) s = valueOp sub8 .indirect p s := rfl
theorem exec_lda (p : Word) (s : State) : exec (.lda p) s = valueOp (fun _ v => v) .direct p s := rfl
theorem exec_ldaI (p : Word) (s : State) : exec (.ldaI p) s = valueOp (fun _ v => v) .indirect p s := rfl
theorem exec_sta (p : Word) (s : State) : exec (.sta p) s = storeOp .direct p s := rfl
theorem exec_staI (p : Word) (s : State) : exec (.staI p) s = storeOp .indirect p s := rfl
theorem exec_bun (p : Word) (s : State) : exec (.bun p) s = branchOp .direct p s := rfl
theorem exec_bunI (p : Word) (s : State) : exec (.bunI p) s = branchOp .indirect p s := rfl
theorem exec_isz (p : Word) (s : State) : exec (.isz p) s = incrementSkipOp Config.default .direct p s := rfl
theorem exec_iszI (p : Word) (s : State) : exec (.iszI p) s = incrementSkipOp Config.default .indirect p s := rfl

/-- Every instruction is a value operation, a store, a branch, an increment-and-skip, HLT, or a one-word
instruction that changes at most AC and advances PC by 1. -/
theorem exec_shape (i : Instr) :
    (∃ (f : Word → Word → Word) (mode : AddrMode) (p : Word), ∀ s, exec i s = valueOp f mode p s) ∨
    (∃ (mode : AddrMode) (p : Word), ∀ s, exec i s = storeOp mode p s) ∨
    (∃ (mode : AddrMode) (p : Word), ∀ s, exec i s = branchOp mode p s) ∨
    (∃ (mode : AddrMode) (p : Word), ∀ s, exec i s = incrementSkipOp Config.default mode p s) ∨
    (i = .hlt ∧ ∀ s, exec i s = .next { s with status := .halted }) ∨
    (∃ g : Word → Word, ∀ s, exec i s = .next { s with ac := g s.ac, pc := s.pc + 1 }) := by
  cases i with
  | and p => exact .inl ⟨_, _, p, exec_and p⟩
  | andI p => exact .inl ⟨_, _, p, exec_andI p⟩
  | add p => exact .inl ⟨_, _, p, exec_add p⟩
  | addI p => exact .inl ⟨_, _, p, exec_addI p⟩
  | sub p => exact .inl ⟨_, _, p, exec_sub p⟩
  | subI p => exact .inl ⟨_, _, p, exec_subI p⟩
  | lda p => exact .inl ⟨_, _, p, exec_lda p⟩
  | ldaI p => exact .inl ⟨_, _, p, exec_ldaI p⟩
  | sta p => exact .inr (.inl ⟨_, p, exec_sta p⟩)
  | staI p => exact .inr (.inl ⟨_, p, exec_staI p⟩)
  | bun p => exact .inr (.inr (.inl ⟨_, p, exec_bun p⟩))
  | bunI p => exact .inr (.inr (.inl ⟨_, p, exec_bunI p⟩))
  | isz p => exact .inr (.inr (.inr (.inl ⟨_, p, exec_isz p⟩)))
  | iszI p => exact .inr (.inr (.inr (.inl ⟨_, p, exec_iszI p⟩)))
  | hlt => exact .inr (.inr (.inr (.inr (.inl ⟨rfl, fun _ => rfl⟩))))
  | cla => exact .inr (.inr (.inr (.inr (.inr ⟨fun _ => 0x00#8, fun _ => rfl⟩))))
  | cma => exact .inr (.inr (.inr (.inr (.inr ⟨not8, fun _ => rfl⟩))))
  | asl => exact .inr (.inr (.inr (.inr (.inr ⟨id, fun _ => rfl⟩))))
  | asr => exact .inr (.inr (.inr (.inr (.inr ⟨id, fun _ => rfl⟩))))
  | inc => exact .inr (.inr (.inr (.inr (.inr ⟨id, fun _ => rfl⟩))))
  | undef op => exact .inr (.inr (.inr (.inr (.inr ⟨id, fun _ => rfl⟩))))

/-- A cycle that fetches a one-word instruction. -/
theorem cycle_oneWord {run : Instr → State → Host.Outcome State Fault Refusal} {s : State} {op : Word} {i : Instr}
    (h : s.Fetches op) (hd : decodeOpcode op = .oneWord i) : cycle run s = run i { s with ir := op } := by
  obtain ⟨hs, hpc, hop⟩ := h
  have hf : fetch s = .ok (i, { s with ir := op }) := by simp [fetch, memRead_valid _ s hpc, hop, hd]
  rw [cycle_of_running hs, hf]

/-- A cycle that fetches a two-word instruction whose address field exists. -/
theorem cycle_twoWord {run : Instr → State → Host.Outcome State Fault Refusal} {s : State} {op : Word}
    {o : OperandOp} {indirect : Bool} (h : s.Fetches op) (hd : decodeOpcode op = .operand o indirect)
    (h63 : s.pc < 63) : cycle run s = run (operandInstr o indirect s.field) { s with ir := op } := by
  obtain ⟨hs, hpc, hop⟩ := h
  have hp : s.pc + 1 < 64 := by omega
  have hf : fetch s = .ok (operandInstr o indirect s.field, { s with ir := op }) := by
    simp [fetch, memRead_valid _ s hpc, hop, hd, memRead_valid _ s hp, State.field]
  rw [cycle_of_running hs, hf]

/-- A cycle that fetches a two-word instruction at 63, where no address field exists. -/
theorem cycle_twoWord_at_63 {run : Instr → State → Host.Outcome State Fault Refusal} {s : State} {op : Word}
    {o : OperandOp} {indirect : Bool} (h : s.Fetches op) (hd : decodeOpcode op = .operand o indirect)
    (h63 : s.pc = 63) : cycle run s = .next (s.raised op 64 .operandFetch) := by
  obtain ⟨hs, hpc, hop⟩ := h
  have he : memRead (s.pc + 1) .operandFetch s = .error { addr := 64, kind := .operandFetch } := by
    rw [memRead_invalid _ s (by omega), h63]
  have hf : fetch s = .error (s.raised op 64 .operandFetch) := by
    simp [fetch, memRead_valid _ s hpc, hop, hd, he, State.raised, takeOutOfRange]
  rw [cycle_of_running hs, hf]

theorem step_oneWord {s : State} {op : Word} {i : Instr} (h : s.Fetches op)
    (hd : decodeOpcode op = .oneWord i) : step s = exec i { s with ir := op } := cycle_oneWord h hd

theorem step_twoWord {s : State} {op : Word} {o : OperandOp} {indirect : Bool} (h : s.Fetches op)
    (hd : decodeOpcode op = .operand o indirect) (h63 : s.pc < 63) :
    step s = exec (operandInstr o indirect s.field) { s with ir := op } := cycle_twoWord h hd h63

/-! The machine at any configuration -/

theorem execAt_isz (cfg : Config) (p : Word) (s : State) :
    execAt cfg (.isz p) s = incrementSkipOp cfg .direct p s := rfl
theorem execAt_iszI (cfg : Config) (p : Word) (s : State) :
    execAt cfg (.iszI p) s = incrementSkipOp cfg .indirect p s := rfl
theorem execAt_asl (cfg : Config) (s : State) : execAt cfg .asl s = reservedOp cfg 0x44#8 s := rfl
theorem execAt_asr (cfg : Config) (s : State) : execAt cfg .asr s = reservedOp cfg 0x48#8 s := rfl
theorem execAt_inc (cfg : Config) (s : State) : execAt cfg .inc s = reservedOp cfg 0x50#8 s := rfl

/-- At the default parameters the configured operation is that of `exec`. -/
theorem execAt_default (i : Instr) (s : State) : execAt Config.default i s = exec i s := by
  cases i <;> rfl

/-- An instruction either depends on no parameter, or is an ISZ, or is a reserved code. -/
theorem execAt_shape (i : Instr) :
    (∀ cfg s, execAt cfg i s = exec i s) ∨
    (∃ (mode : AddrMode) (p : Word), ∀ cfg s, execAt cfg i s = incrementSkipOp cfg mode p s) ∨
    (∃ op ∈ [0x44#8, 0x48#8, 0x50#8], ∀ cfg s, execAt cfg i s = reservedOp cfg op s) := by
  cases i with
  | isz p => exact .inr (.inl ⟨_, p, fun cfg s => execAt_isz cfg p s⟩)
  | iszI p => exact .inr (.inl ⟨_, p, fun cfg s => execAt_iszI cfg p s⟩)
  | asl => exact .inr (.inr ⟨_, by simp, execAt_asl⟩)
  | asr => exact .inr (.inr ⟨_, by simp, execAt_asr⟩)
  | inc => exact .inr (.inr ⟨_, by simp, execAt_inc⟩)
  | _ => exact .inl fun _ _ => rfl

end Sys2Proof.Machine
end

