-- ==== Sys2Proof/Laws/PerInstr.lean ====
section
/-! SUPPORT. Statements about every instruction as syntax, one lemma for each constructor. -/

namespace Sys2Proof.Laws.EncodedLength

/-- The encoder gives a well-formed instruction the number of words that R64 computes from its first one. -/
def Statement (i : Instr) : Prop :=
  i.wf = true → (encode i).length = instrLength ((encode i).headD 0x00#8)

theorem and (p : Word) : Statement (.and p) := fun _ => rfl
theorem andI (p : Word) : Statement (.andI p) := fun _ => rfl
theorem add (p : Word) : Statement (.add p) := fun _ => rfl
theorem addI (p : Word) : Statement (.addI p) := fun _ => rfl
theorem sub (p : Word) : Statement (.sub p) := fun _ => rfl
theorem subI (p : Word) : Statement (.subI p) := fun _ => rfl
theorem lda (p : Word) : Statement (.lda p) := fun _ => rfl
theorem ldaI (p : Word) : Statement (.ldaI p) := fun _ => rfl
theorem sta (p : Word) : Statement (.sta p) := fun _ => rfl
theorem staI (p : Word) : Statement (.staI p) := fun _ => rfl
theorem bun (p : Word) : Statement (.bun p) := fun _ => rfl
theorem bunI (p : Word) : Statement (.bunI p) := fun _ => rfl
theorem isz (p : Word) : Statement (.isz p) := fun _ => rfl
theorem iszI (p : Word) : Statement (.iszI p) := fun _ => rfl
theorem cla : Statement .cla := fun _ => rfl
theorem cma : Statement .cma := fun _ => rfl
theorem hlt : Statement .hlt := fun _ => rfl
theorem asl : Statement .asl := fun _ => rfl
theorem asr : Statement .asr := fun _ => rfl
theorem inc : Statement .inc := fun _ => rfl
theorem undef (op : Word) : Statement (.undef op) := by
  intro h
  have hop : op ∉ operandCodes := by
    intro hm
    simp [Instr.wf, definedCodes, hm] at h
  simp [encode, instrLength, hop]

end Sys2Proof.Laws.EncodedLength
end

