-- ==== Sys2Proof/Tests/Slice0.lean ====
section
/-! SUPPORT. The model's own tests. Expected results come from spec/95_test_vectors.md and from the examples
and corner cases of the instruction rules; words are written out from spec/30_encoding.md R63 and R67.
The theorems named witness_… show that the hypotheses of a statement can be met, clause by clause. -/

namespace Sys2Proof.Tests

open Sys2Proof Sys2Proof.Machine

/-- A Running core with the given PC, AC and memory, IR = 0x00 (the start states of 95_test_vectors.md). -/
abbrev machineAt (pc : Nat) (ac : Word) (mem : Memory) : State :=
  { State.reset with pc := pc, ac := ac, mem := mem }

/-- The outcome is a next state, and it is `t`. -/
def answers (o : Host.Outcome State Fault Refusal) (t : State) : Bool :=
  match o with
  | .next u => decide (u = t)
  | _ => false

/-- The outcome is a next state with this run state, AC, PC, IR and memory, and no fault record. -/
def ends (o : Host.Outcome State Fault Refusal) (st : Status) (ac : Word) (pc : Nat) (ir : Word)
    (mem : Memory) : Bool :=
  answers o { mem := mem, ac := ac, pc := pc, ir := ir, status := st, fault := none }

/-- The outcome is the Faulted state with this record; PC, AC and memory are those of `s`. -/
def faults (s : State) (ir : Word) (addr : Nat) (kind : AccessKind) : Bool :=
  answers (step s) { s with ir := ir, status := .faulted, fault := some { addr := addr, kind := kind } }

/-! ### Well-formedness: the one check, and an ill-formed term it refuses -/

theorem test_wf_refuses_defined_code : Instr.wf (.undef 0x60#8) = false := by decide
theorem test_wf_accepts_undefined_code : Instr.wf (.undef 0xE0#8) = true := by decide

/-! ### Every constructor's word, written out bit by bit (second word, first word) -/

theorem test_decode_and : decodeTableWord 16 0b00001010_00000001 = some (.and 0x0A#8) := by decide
theorem test_decode_andI : decodeTableWord 16 0b00001010_10000001 = some (.andI 0x0A#8) := by decide
theorem test_decode_add : decodeTableWord 16 0b00001011_00000010 = some (.add 0x0B#8) := by decide
theorem test_decode_addI : decodeTableWord 16 0b00010000_10000010 = some (.addI 0x10#8) := by decide
theorem test_decode_sub : decodeTableWord 16 0b00100000_00000011 = some (.sub 0x20#8) := by decide
theorem test_decode_subI : decodeTableWord 16 0b00010000_10000011 = some (.subI 0x10#8) := by decide
theorem test_decode_lda : decodeTableWord 16 0b00000111_00000100 = some (.lda 0x07#8) := by decide
theorem test_decode_ldaI : decodeTableWord 16 0b11111111_10000100 = some (.ldaI 0xFF#8) := by decide
theorem test_decode_sta : decodeTableWord 16 0b00001100_00001000 = some (.sta 0x0C#8) := by decide
theorem test_decode_staI : decodeTableWord 16 0b00010110_10001000 = some (.staI 0x16#8) := by decide
theorem test_decode_bun : decodeTableWord 16 0b01000000_00010000 = some (.bun 0x40#8) := by decide
theorem test_decode_bunI : decodeTableWord 16 0b00010000_10010000 = some (.bunI 0x10#8) := by decide
theorem test_decode_isz : decodeTableWord 16 0b00010010_00100000 = some (.isz 0x12#8) := by decide
theorem test_decode_iszI : decodeTableWord 16 0b00010000_10100000 = some (.iszI 0x10#8) := by decide
theorem test_decode_cla : decodeTableWord 8 0b01000001 = some .cla := by decide
theorem test_decode_cma : decodeTableWord 8 0b01000010 = some .cma := by decide
theorem test_decode_hlt : decodeTableWord 8 0b01100000 = some .hlt := by decide
theorem test_decode_asl : decodeTableWord 8 0b01000100 = some .asl := by decide
theorem test_decode_asr : decodeTableWord 8 0b01001000 = some .asr := by decide
theorem test_decode_inc : decodeTableWord 8 0b01010000 = some .inc := by decide
theorem test_decode_undef : decodeTableWord 8 0b11100000 = some (.undef 0xE0#8) := by decide
theorem test_decode_short_row : decodeTableWord 8 0b00000001 = some (.and 0x00#8) := by decide
theorem test_decode_rejects_missing_field : decode [0x04#8] = .error (.noAddressField 0x04#8) := by rfl
theorem test_decode_rejects_nothing : decode [] = .error .noOpcodeWord := by rfl

/-! ### One step of each instruction (95_test_vectors.md sections 2.2 to 2.5) -/

theorem test_and_direct :
    ends (step (machineAt 0 0x0F#8 [(0, 0x01#8), (1, 0x0A#8), (0x0A, 0x3C#8)])) .running 0x0C#8 2 0x01#8
      [(0, 0x01#8), (1, 0x0A#8), (0x0A, 0x3C#8)] = true := by decide
theorem test_and_reads_its_own_opcode :
    ends (step (machineAt 0 0xFF#8 [(0, 0x01#8)])) .running 0x01#8 2 0x01#8 [(0, 0x01#8)] = true := by decide
theorem test_and_indirect :
    ends (step (machineAt 0 0x3C#8 [(0, 0x81#8), (1, 0x0A#8), (0x0A, 0x20#8), (0x20, 0xF0#8)])) .running 0x30#8 2
      0x81#8 [(0, 0x81#8), (1, 0x0A#8), (0x0A, 0x20#8), (0x20, 0xF0#8)] = true := by decide
theorem test_add_negative_operand :
    ends (step (machineAt 2 0x05#8 [(2, 0x02#8), (3, 0x0B#8), (0x0B, 0xFD#8)])) .running 0x02#8 4 0x02#8
      [(2, 0x02#8), (3, 0x0B#8), (0x0B, 0xFD#8)] = true := by decide
theorem test_add_signed_overflow :
    ends (step (machineAt 0 0x7F#8 [(0, 0x02#8), (1, 0x10#8), (0x10, 0x01#8)])) .running 0x80#8 2 0x02#8
      [(0, 0x02#8), (1, 0x10#8), (0x10, 0x01#8)] = true := by decide
theorem test_add_indirect :
    ends (step (machineAt 0 0x03#8 [(0, 0x82#8), (1, 0x10#8), (0x10, 0x11#8), (0x11, 0x05#8)])) .running 0x08#8 2
      0x82#8 [(0, 0x82#8), (1, 0x10#8), (0x10, 0x11#8), (0x11, 0x05#8)] = true := by decide
theorem test_sub_direct :
    ends (step (machineAt 4 0x10#8 [(4, 0x03#8), (5, 0x20#8), (0x20, 0x11#8)])) .running 0xFF#8 6 0x03#8
      [(4, 0x03#8), (5, 0x20#8), (0x20, 0x11#8)] = true := by decide
theorem test_sub_wraps_to_positive :
    ends (step (machineAt 0 0x80#8 [(0, 0x03#8), (1, 0x10#8), (0x10, 0x01#8)])) .running 0x7F#8 2 0x03#8
      [(0, 0x03#8), (1, 0x10#8), (0x10, 0x01#8)] = true := by decide
theorem test_sub_indirect :
    ends (step (machineAt 0 0x03#8 [(0, 0x83#8), (1, 0x10#8), (0x10, 0x11#8), (0x11, 0x05#8)])) .running 0xFE#8 2
      0x83#8 [(0, 0x83#8), (1, 0x10#8), (0x10, 0x11#8), (0x11, 0x05#8)] = true := by decide
theorem test_lda_at_63_faults :
    faults (machineAt 63 0x00#8 [(63, 0x04#8)]) 0x04#8 64 .operandFetch = true := by decide
theorem test_lda_field_0x40_faults :
    faults (machineAt 0 0x00#8 [(0, 0x04#8), (1, 0x40#8)]) 0x04#8 64 .dataRead = true := by decide
theorem test_lda_indirect_field_points_at_itself :
    ends (step (machineAt 0 0x00#8 [(0, 0x84#8), (1, 0x01#8)])) .running 0x01#8 2 0x84#8
      [(0, 0x84#8), (1, 0x01#8)] = true := by decide
theorem test_lda_indirect_field_0xFF_faults :
    faults (machineAt 0 0x00#8 [(0, 0x84#8), (1, 0xFF#8)]) 0x84#8 255 .pointerRead = true := by decide
theorem test_sta_overwrites_its_own_address_field :
    ends (step (machineAt 0 0x3F#8 [(0, 0x08#8), (1, 0x01#8)])) .running 0x3F#8 2 0x08#8
      [(0, 0x08#8), (1, 0x3F#8)] = true := by decide
theorem test_sta_target_0x40_faults :
    faults (machineAt 0 0x77#8 [(0, 0x08#8), (1, 0x40#8)]) 0x08#8 64 .dataWrite = true := by decide
theorem test_sta_indirect :
    ends (step (machineAt 0 0xFB#8 [(0, 0x88#8), (1, 0x16#8), (0x16, 0x18#8)])) .running 0xFB#8 2 0x88#8
      [(0, 0x88#8), (1, 0x16#8), (0x16, 0x18#8), (0x18, 0xFB#8)] = true := by decide
theorem test_bun_to_0 :
    ends (step (machineAt 8 0x00#8 [(8, 0x10#8)])) .running 0x00#8 0 0x10#8 [(8, 0x10#8)] = true := by decide
theorem test_bun_to_0x40_completes :
    ends (step (machineAt 0 0x00#8 [(0, 0x10#8), (1, 0x40#8)])) .running 0x00#8 64 0x10#8
      [(0, 0x10#8), (1, 0x40#8)] = true := by decide
theorem test_bun_indirect :
    ends (step (machineAt 0 0x00#8 [(0, 0x90#8), (1, 0x10#8), (0x10, 0x2A#8)])) .running 0x00#8 42 0x90#8
      [(0, 0x90#8), (1, 0x10#8), (0x10, 0x2A#8)] = true := by decide
theorem test_isz_to_zero_skips :
    ends (step (machineAt 6 0x00#8 [(6, 0x20#8), (7, 0x12#8), (0x12, 0xFF#8)])) .running 0x00#8 9 0x20#8
      [(6, 0x20#8), (7, 0x12#8)] = true := by decide
theorem test_isz_of_its_own_address_field :
    ends (step (machineAt 0 0x00#8 [(0, 0x20#8), (1, 0x01#8)])) .running 0x00#8 2 0x20#8
      [(0, 0x20#8), (1, 0x02#8)] = true := by decide
theorem test_isz_indirect_skips :
    ends (step (machineAt 0 0x00#8 [(0, 0xA0#8), (1, 0x10#8), (0x10, 0x11#8), (0x11, 0xFF#8)])) .running 0x00#8 3
      0xA0#8 [(0, 0xA0#8), (1, 0x10#8), (0x10, 0x11#8)] = true := by decide
theorem test_cla :
    ends (step (machineAt 3 0x5A#8 [(3, 0x41#8)])) .running 0x00#8 4 0x41#8 [(3, 0x41#8)] = true := by decide
theorem test_cma :
    ends (step (machineAt 2 0x5A#8 [(2, 0x42#8)])) .running 0xA5#8 3 0x42#8 [(2, 0x42#8)] = true := by decide
theorem test_hlt :
    ends (step (machineAt 6 0x12#8 [(6, 0x60#8)])) .halted 0x12#8 6 0x60#8 [(6, 0x60#8)] = true := by decide
theorem test_asl_changes_only_pc :
    ends (step (machineAt 0 0x81#8 [(0, 0x44#8)])) .running 0x81#8 1 0x44#8 [(0, 0x44#8)] = true := by decide
theorem test_asr_changes_only_pc :
    ends (step (machineAt 0 0x81#8 [(0, 0x48#8)])) .running 0x81#8 1 0x48#8 [(0, 0x48#8)] = true := by decide
theorem test_inc_changes_only_pc :
    ends (step (machineAt 0 0xFF#8 [(0, 0x50#8)])) .running 0xFF#8 1 0x50#8 [(0, 0x50#8)] = true := by decide
theorem test_undef_0x05_takes_no_address_field :
    ends (step (machineAt 0 0x33#8 [(0, 0x05#8), (1, 0x01#8)])) .running 0x33#8 1 0x05#8
      [(0, 0x05#8), (1, 0x01#8)] = true := by decide
theorem test_0xE0_does_not_halt :
    ends (step (machineAt 0 0x12#8 [(0, 0xE0#8)])) .running 0x12#8 1 0xE0#8 [(0, 0xE0#8)] = true := by decide
theorem test_fetch_at_64_faults :
    faults (machineAt 64 0x33#8 []) 0x00#8 64 .fetch = true := by decide

/-! ### The Arithmetic Unit (2.1) -/

theorem test_toSigned : [0x00#8, 0x7F#8, 0x80#8, 0xFF#8, 0xFE#8].map toSigned = [0, 127, -128, -1, -2] := by decide
theorem test_add8 : add8 0x80#8 0x80#8 = 0x00#8 ∧ add8 0x80#8 0x7F#8 = 0xFF#8 := by decide
theorem test_sub8 : sub8 0x7F#8 0xFF#8 = 0x80#8 ∧ sub8 0x00#8 0x80#8 = 0x80#8 := by decide
theorem test_and8_not8 : and8 0x3C#8 0xF0#8 = 0x30#8 ∧ not8 0x5A#8 = 0xA5#8 := by decide

/-! ### The machine at other parameters (R8) -/

/-- The configuration with these two advances of ISZ. -/
abbrev atAdvance (noSkip skip : Nat) : Config :=
  { Config.default with iszAdvance := { noSkip := noSkip, skip := skip } }

/-- The configuration in which the reserved codes have no meaning. -/
abbrev atRefuse : Config := { Config.default with reservedOpMode := .refuse }

/-- 95_test_vectors.md 1.1, S6 (0xFF, skip): PC 6 to 8 at `ISZ_ADVANCE` = (1, 2), to 10 at (2, 4). -/
theorem test_isz_skip_at_other_advances :
    ends (stepAt (atAdvance 1 2) (machineAt 6 0x00#8 [(6, 0x20#8), (7, 0x12#8), (0x12, 0xFF#8)])) .running 0x00#8 8
      0x20#8 [(6, 0x20#8), (7, 0x12#8)] = true ∧
    ends (stepAt (atAdvance 2 4) (machineAt 6 0x00#8 [(6, 0x20#8), (7, 0x12#8), (0x12, 0xFF#8)])) .running 0x00#8 10
      0x20#8 [(6, 0x20#8), (7, 0x12#8)] = true := by decide
/-- 95_test_vectors.md 1.1, S7 (0x05, no skip): PC 6 to 7 at `ISZ_ADVANCE` = (1, 2), to 8 at (2, 4). -/
theorem test_isz_no_skip_at_other_advances :
    ends (stepAt (atAdvance 1 2) (machineAt 6 0x00#8 [(6, 0x20#8), (7, 0x12#8), (0x12, 0x05#8)])) .running 0x00#8 7
      0x20#8 [(6, 0x20#8), (7, 0x12#8), (0x12, 0x06#8)] = true ∧
    ends (stepAt (atAdvance 2 4) (machineAt 6 0x00#8 [(6, 0x20#8), (7, 0x12#8), (0x12, 0x05#8)])) .running 0x00#8 8
      0x20#8 [(6, 0x20#8), (7, 0x12#8), (0x12, 0x06#8)] = true := by decide
/-- At `RESERVED_OP_MODE = refuse` the program is refused (R123). -/
theorem test_asl_is_refused_at_refuse :
    stepAt atRefuse (machineAt 0 0x81#8 [(0, 0x44#8)]) = .refused (.reservedOpcode 0x44#8) := by rfl

/-! ### The host and the assembler -/

/-- The end state of 95_test_vectors.md 2.4's HLT row as the host reads it: Halted, AC = 0x12, PC = 6, IR = 0x60. -/
theorem test_host_reads_a_halted_core :
    (match step (machineAt 6 0x12#8 [(6, 0x60#8)]) with
      | .next t => (hostStatus t, hostRegisters t, hostRead 6 t)
      | _ => (none, none, none)) =
    (some (.halted, none), some { pc := 6, ac := 0x12#8, ir := 0x60#8 }, some 0x60#8) := by decide
/-- 95_test_vectors.md 3.6 as lines; its image begins 04 10 08 11 41 04 11 60. -/
theorem test_assemble :
    (assemble [⟨some 0x00, .instr (.lda 0x10#8)⟩, ⟨some 0x02, .instr (.sta 0x11#8)⟩, ⟨some 0x04, .instr .cla⟩,
      ⟨none, .instr (.lda 0x11#8)⟩, ⟨none, .instr .hlt⟩, ⟨some 0x10, .word 0xA7#8⟩]).map (fun ws => ws.take 8) =
    some [0x04#8, 0x10#8, 0x08#8, 0x11#8, 0x41#8, 0x04#8, 0x11#8, 0x60#8] := by decide
/-- The instruction stored by `withFetchWord` is the first one a step runs after reset. -/
theorem test_withFetchWord_runs_first :
    answers (step (State.reset.withFetchWord 16 0x2A10)) { machineAt 42 0x00#8 [(0, 0x10#8), (1, 0x2A#8)] with ir := 0x10#8 }
      = true := by decide

/-! ### The hypotheses of the statements can be met -/

/-- An image of 64 HLT words. -/
abbrev haltImage : List Word := List.replicate 64 0x60#8

/-- A Halted core that its invariant allows. -/
abbrev haltedCore : State := { machineAt 6 0x12#8 [(6, 0x60#8)] with ir := 0x60#8, status := .halted }

theorem haltedCore_inv : haltedCore.Inv :=
  { mem_wf := by decide, pc_le := by decide, fault_iff := by decide, fault_fits := by simp [State.reset],
    halted_ir := by decide }

theorem runningCore_inv : (machineAt 6 0x12#8 [(6, 0x60#8)]).Inv :=
  { mem_wf := by decide, pc_le := by decide, fault_iff := by decide, fault_fits := by simp [State.reset],
    halted_ir := by decide }

theorem witness_DecodeOfEncode : Instr.wf (.undef 0xC1#8) = true := by decide
theorem witness_EncodeOfDecode : decode [0x02#8, 0x0B#8, 0x60#8] = .ok (.add 0x0B#8, [0x60#8]) := by rfl
theorem witness_LengthFromOpcodeAlone : 0xA0#8 ∈ operandCodes ∧ 0xC1#8 ∉ operandCodes := by decide
theorem witness_OpcodeMap : 0x00#8 ∉ definedCodes ∧ 0xFF#8 ∉ definedCodes := by decide
theorem witness_UndefinedOpcodesAreNoOps :
    0xE0#8 ∉ definedCodes ∧ (machineAt 63 0x00#8 [(63, 0xE0#8)]).Fetches 0xE0#8 := by decide
theorem witness_NoIndirectFormOfOneWordCodes :
    (machineAt 63 0x00#8 [(63, 0xC1#8)]).Fetches 0xC1#8 ∧ (machineAt 0 0x00#8 [(0, 0xE0#8)]).Fetches 0xE0#8 := by
  decide
theorem witness_StepRunsDecodedInstruction :
    decode (wordsAt [(62, 0x04#8), (63, 0x3F#8)] 62) = .ok (.lda 0x3F#8, []) ∧
    decode (wordsAt [(63, 0x60#8)] 63) = .ok (.hlt, []) := ⟨by rfl, by rfl⟩
theorem witness_FetchPastMemoryFaults : (machineAt 64 0x00#8 []).status = .running ∧ 64 ≤ (machineAt 64 0x00#8 []).pc := by
  decide
/-- One state for each row of the PC table that the step tests above do not show. -/
theorem witness_PcAfterCycle :
    faults (machineAt 63 0x00#8 [(63, 0x10#8)]) 0x10#8 64 .operandFetch = true ∧
    ends (step (machineAt 62 0x00#8 [(62, 0x08#8), (63, 0x3E#8)])) .running 0x00#8 64 0x08#8 [(63, 0x3E#8)] = true ∧
    ends (step (machineAt 0 0x00#8 [(0, 0xA0#8), (1, 0x3F#8)])) .running 0x00#8 2 0xA0#8 [(0, 0xA1#8), (1, 0x3F#8)] = true ∧
    ends (step (machineAt 63 0x00#8 [(63, 0x60#8)])) .halted 0x00#8 63 0x60#8 [(63, 0x60#8)] = true ∧
    ends (step (machineAt 63 0x00#8 [])) .running 0x00#8 64 0x00#8 [] = true := by decide
theorem witness_FirstBadAccessIsReported :
    firstBadAccess (machineAt 64 0x00#8 []) = some (64, .fetch) ∧
    firstBadAccess (machineAt 63 0x00#8 [(63, 0x20#8)]) = some (64, .operandFetch) ∧
    firstBadAccess (machineAt 0 0x00#8 [(0, 0x90#8), (1, 0x40#8)]) = some (64, .pointerRead) ∧
    firstBadAccess (machineAt 0 0x00#8 [(0, 0xA0#8), (1, 0x3F#8), (63, 0xFF#8)]) = some (255, .dataRead) ∧
    firstBadAccess (machineAt 0 0x00#8 [(0, 0x08#8), (1, 0x40#8)]) = some (64, .dataWrite) ∧
    firstBadAccess (machineAt 62 0x00#8 [(62, 0x10#8), (63, 0xFF#8)]) = none := by decide
theorem witness_OutOfRangeIsPrecise :
    faults (machineAt 255 0x33#8 []) 0x00#8 255 .fetch = true ∧
    faults (machineAt 0 0x00#8 [(0, 0x84#8), (1, 0x10#8), (0x10, 0x80#8)]) 0x84#8 128 .dataRead = true := by decide
theorem witness_HaltedAndFaultedAreTerminal :
    haltedCore.status ≠ .running ∧ ((machineAt 64 0x00#8 []).raised 0x00#8 64 .fetch).status ≠ .running := by decide
theorem witness_RunningEndsOnlyByHltOrOutOfRange :
    answers (step (machineAt 6 0x12#8 [(6, 0x60#8)])) haltedCore = true ∧
    faults (machineAt 0 0x77#8 [(0, 0x88#8), (1, 0x50#8)]) 0x88#8 80 .pointerRead = true := by decide
theorem witness_OnlyStaAndIszWriteMemory :
    faults (machineAt 0 0x00#8 [(0, 0x20#8), (1, 0x40#8)]) 0x20#8 64 .dataRead = true ∧
    (machineAt 0 0x00#8 [(0, 0x41#8)]).mem.read 0 ∉ [0x08#8, 0x88#8, 0x20#8, 0xA0#8] := by decide
/-- First clause: STA at 0 stores 0x3F over its own address field, so the word that changes is the one the
field of the state before names; ISZ indirect changes the word its pointer names. Second clause: LDA, and a
Halted core. Third clause: STA indirect with field 0x40. -/
theorem witness_OneCycleWritesOneWord :
    (answers (step (machineAt 0 0x3F#8 [(0, 0x08#8), (1, 0x01#8)]))
      { machineAt 2 0x3F#8 [(0, 0x08#8), (1, 0x3F#8)] with ir := 0x08#8 } = true ∧
      WritesThrough 0x08#8 .direct ∧ (machineAt 0 0x3F#8 [(0, 0x08#8), (1, 0x01#8)]).field = 0x01#8) ∧
    (ends (step (machineAt 0 0x00#8 [(0, 0xA0#8), (1, 0x3F#8)])) .running 0x00#8 2 0xA0#8 [(0, 0xA1#8), (1, 0x3F#8)] = true ∧
      WritesThrough 0xA0#8 .indirect) ∧
    (ends (step (machineAt 0 0x00#8 [(0, 0x04#8)])) .running 0x04#8 2 0x04#8 [(0, 0x04#8)] = true ∧
      0x04#8 ∉ [0x08#8, 0x88#8, 0x20#8, 0xA0#8] ∧ haltedCore.status ≠ .running) ∧
    (faults (machineAt 0 0x77#8 [(0, 0x88#8), (1, 0x40#8)]) 0x88#8 64 .pointerRead = true ∧
      WritesThrough 0x88#8 .indirect) := by unfold WritesThrough; decide
theorem witness_AcWriters :
    ends (step (machineAt 0 0x00#8 [(0, 0x42#8)])) .running 0xFF#8 1 0x42#8 [(0, 0x42#8)] = true := by decide
theorem witness_AcReaders :
    operandValue .direct 0x3F#8 (machineAt 0 0x11#8 [(63, 0x77#8)]) = .ok 0x77#8 ∧
    operandValue .direct 0x40#8 (machineAt 0 0x11#8 []) = .error { addr := 64, kind := .dataRead } ∧
    operandValue .indirect 0x3F#8 (machineAt 0 0x11#8 [(63, 0x3F#8)]) = .ok 0x3F#8 ∧
    operandValue .indirect 0x40#8 (machineAt 0 0x11#8 []) = .error { addr := 64, kind := .pointerRead } ∧
    ends (exec (.bun 0xFF#8) (machineAt 0 0x11#8 [])) .running 0x11#8 255 0x00#8 [] = true ∧
    ends (exec (.isz 0x3F#8) (machineAt 0 0x11#8 [])) .running 0x11#8 2 0x00#8 [(63, 0x01#8)] = true ∧
    ends (exec .hlt (machineAt 0 0x11#8 [])) .halted 0x11#8 0 0x00#8 [] = true :=
  ⟨by rfl, by rfl, by rfl, by rfl, by decide, by decide, by decide⟩
theorem witness_IrHoldsTheFetchedOpcode :
    ends (step (machineAt 63 0x00#8 [(63, 0x60#8)])) .halted 0x00#8 63 0x60#8 [(63, 0x60#8)] = true ∧
    faults { machineAt 64 0x00#8 [] with ir := 0x10#8 } 0x10#8 64 .fetch = true ∧
    ends (exec .cla (machineAt 0 0x11#8 [])) .running 0x00#8 1 0x00#8 [] = true := by decide
theorem witness_StepKeepsInv : (machineAt 6 0x12#8 [(6, 0x60#8)]).Inv ∧
    step (machineAt 6 0x12#8 [(6, 0x60#8)]) = .next haltedCore := ⟨runningCore_inv, by rfl⟩
theorem witness_ResetAndBootMeetInv : haltImage.length = 64 := by decide
theorem witness_HostKeepsInv : haltedCore.Inv ∧
    hostReset haltedCore = some (machineAt 0 0x00#8 [(6, 0x60#8)]) ∧ (hostLoad haltImage haltedCore).isSome = true :=
  ⟨haltedCore_inv, by decide, by decide⟩
theorem witness_ResetValues : haltedCore.status ≠ .running ∧ 63 < haltImage.length ∧ haltImage.length = 64 := by decide
theorem witness_LoadThenResetIsBoot : haltedCore.status ≠ .running ∧ haltImage.length = 64 := by decide
theorem witness_ReadbackOfLoad :
    hostLoad haltImage haltedCore = some { haltedCore with mem := Memory.ofWords 0 haltImage } := by decide
theorem witness_HostIsShutOutWhileRunning :
    State.reset.status = .running ∧ (List.replicate 63 0x00#8).length ≠ 64 ∧ (List.replicate 65 0x00#8).length ≠ 64 := by
  decide
theorem witness_ImageRowsGiveAddresses :
    (imageOfRows (List.replicate 8 (List.replicate 8 0x60#8))) = some haltImage ∧ imageAddress 7 7 = 63 := by decide
theorem witness_AssembledInstructionDecodes :
    62 + (encode (.staI 0x16#8)).length ≤ 64 ∧ 63 + (encode (.undef 0xE0#8)).length ≤ 64 ∧
    Instr.wf (.staI 0x16#8) = true ∧ Instr.wf (.undef 0xE0#8) = true := by decide
theorem witness_MemoryAccessRules :
    memRead 63 .dataRead (machineAt 0 0x00#8 [(63, 0x77#8)]) = .ok 0x77#8 ∧
    memWrite 64 0x77#8 (machineAt 0 0x00#8 []) = .error { addr := 64, kind := .dataWrite } := ⟨by rfl, by rfl⟩
theorem witness_CanonicalMemoriesAreEqualData :
    Memory.wf [(0, 0x01#8), (63, 0x77#8)] = true ∧
    Memory.write (Memory.write [] 63 0x77#8) 0 0x01#8 = [(0, 0x01#8), (63, 0x77#8)] := by decide
theorem witness_OperandForms :
    effectiveAddress .indirect 0x3F#8 (machineAt 0 0x00#8 [(63, 0x3F#8)]) = .ok 0x3F#8 ∧
    effectiveAddress .indirect 0x3F#8 (machineAt 0 0x00#8 [(63, 0x40#8)]) = .ok 0x40#8 ∧
    64 ≤ (0x40#8).toNat := ⟨by rfl, by rfl, by decide⟩

/-- States that meet the hypotheses of each clause of `OperandCycle dir ind`, at the edges of their ranges:
no address field at 63; field 63 and 64; pointer at 64; pointer at 63 holding 63 and 64. -/
abbrev OperandCycleStates (dir ind : Word) : Prop :=
  (machineAt 63 0x00#8 [(63, dir)]).Fetches dir ∧ (machineAt 63 0x00#8 [(63, ind)]).Fetches ind ∧
  ((machineAt 62 0x00#8 [(62, dir), (63, 0x3F#8)]).Fetches dir ∧
    (machineAt 62 0x00#8 [(62, dir), (63, 0x3F#8)]).field.toNat = 63) ∧
  ((machineAt 62 0x00#8 [(62, dir), (63, 0x40#8)]).Fetches dir ∧
    (machineAt 62 0x00#8 [(62, dir), (63, 0x40#8)]).field.toNat = 64) ∧
  ((machineAt 62 0x00#8 [(62, ind), (63, 0x40#8)]).Fetches ind ∧
    64 ≤ (machineAt 62 0x00#8 [(62, ind), (63, 0x40#8)]).field.toNat) ∧
  ((machineAt 0 0x00#8 [(0, ind), (1, 0x3F#8), (63, 0x3F#8)]).Fetches ind ∧
    (machineAt 0 0x00#8 [(0, ind), (1, 0x3F#8), (63, 0x3F#8)]).field.toNat = 63) ∧
  ((machineAt 0 0x00#8 [(0, ind), (1, 0x3F#8), (63, 0x40#8)]).Fetches ind ∧
    (machineAt 0 0x00#8 [(0, ind), (1, 0x3F#8), (63, 0x40#8)]).mem.read 63 = 0x40#8)

theorem witness_AndCycle : OperandCycleStates 0x01#8 0x81#8 := by decide
theorem witness_AddCycle : OperandCycleStates 0x02#8 0x82#8 := by decide
theorem witness_SubCycle : OperandCycleStates 0x03#8 0x83#8 := by decide
theorem witness_LdaCycle : OperandCycleStates 0x04#8 0x84#8 ∧
    (machineAt 0 0x00#8 [(0, 0x84#8), (1, 0x01#8)]).Fetches 0x84#8 ∧
    (machineAt 0 0x00#8 [(0, 0x84#8), (1, 0x01#8)]).field.toNat = 1 ∧
    (0x3F#8).toNat < 64 ∧
    ends (exec (.sta 0x3F#8) (machineAt 0 0x77#8 [])) .running 0x77#8 2 0x00#8 [(63, 0x77#8)] = true ∧
    ends (exec (.lda 0x3F#8) (machineAt 2 0x11#8 [(63, 0x77#8)])) .running 0x77#8 4 0x00#8 [(63, 0x77#8)] = true := by
  decide
/-- Beside the clauses of every operand cycle: a store into the next instruction's opcode word. -/
theorem witness_StaCycle : OperandCycleStates 0x08#8 0x88#8 ∧
    (machineAt 2 0x60#8 [(2, 0x08#8), (3, 0x04#8)]).field.toNat = 2 + 2 := by decide
theorem witness_BunCycle : OperandCycleStates 0x10#8 0x90#8 := by decide
/-- Beside the clauses of every operand cycle: a word that increments to zero and one that does not, and an
effective address for the parametric clause. -/
theorem witness_IszCycle : OperandCycleStates 0x20#8 0xA0#8 ∧
    BitVec.ofNat 8 ((0xFF#8).toNat + 1) = 0x00#8 ∧ BitVec.ofNat 8 ((0x7F#8).toNat + 1) ≠ 0x00#8 ∧
    (0x3F#8).toNat < 64 := by decide
theorem witness_ClaCycle : (machineAt 63 0x00#8 [(63, 0x41#8)]).Fetches 0x41#8 ∧
    (machineAt 63 0x00#8 [(63, 0xC1#8)]).Fetches 0xC1#8 := by decide
theorem witness_CmaCycle : (machineAt 62 0x00#8 [(62, 0x42#8), (63, 0x42#8)]).Fetches 0x42#8 ∧
    (machineAt 62 0x00#8 [(62, 0x42#8), (63, 0x42#8)]).mem.read 63 = 0x42#8 ∧
    (machineAt 63 0x00#8 [(63, 0xC2#8)]).Fetches 0xC2#8 := by decide
theorem witness_HltCycle : (machineAt 63 0x00#8 [(63, 0x60#8)]).Fetches 0x60#8 ∧
    (machineAt 63 0x00#8 [(63, 0xE0#8)]).Fetches 0xE0#8 := by decide
theorem witness_ReservedCycle : (machineAt 63 0x00#8 [(63, 0x44#8)]).Fetches 0x44#8 ∧
    (machineAt 0 0x00#8 [(0, 0x48#8)]).Fetches 0x48#8 ∧ (machineAt 0 0x00#8 [(0, 0x50#8)]).Fetches 0x50#8 ∧
    Config.default.reservedOpMode = .nop ∧
    { Config.default with reservedOpMode := .refuse }.reservedOpMode = .refuse := by decide
theorem witness_UndefCycle : 0xFF#8 ∉ definedCodes ∧ (machineAt 63 0x00#8 [(63, 0xFF#8)]).Fetches 0xFF#8 := by decide

/-- A memory whose word 63 is a pointer to itself, and one whose word 63 points at 64. -/
theorem witness_ValueOpsComplete : (0x3F#8).toNat < 64 ∧ (Memory.read [(63, 0x3F#8)] 63).toNat < 64 := by decide
theorem witness_StaCompletes : effectiveAddress .direct 0x3F#8 (machineAt 0 0x00#8 []) = .ok 0x3F#8 ∧
    effectiveAddress .indirect 0x3F#8 (machineAt 0 0x00#8 [(63, 0x3F#8)]) = .ok 0x3F#8 := ⟨by rfl, by rfl⟩
theorem witness_BunCompletes : (0x3F#8).toNat < 64 := by decide
theorem witness_IszCompletes : effectiveAddress .direct 0x00#8 (machineAt 0 0x00#8 []) = .ok 0x00#8 ∧
    effectiveAddress .indirect 0x00#8 (machineAt 0 0x00#8 [(0, 0x3F#8)]) = .ok 0x3F#8 := ⟨by rfl, by rfl⟩
theorem witness_OperandOpsRaiseOutOfRange : 64 ≤ (0x40#8).toNat ∧ (0x3F#8).toNat < 64 ∧
    64 ≤ (Memory.read [(63, 0x40#8)] 63).toNat := by decide
theorem witness_StoreIsSeenByNextFetch :
    (machineAt 61 0x60#8 [(61, 0x08#8), (62, 0x3F#8)]).Fetches 0x08#8 ∧
    effectiveAddress .direct 0x3F#8 (machineAt 61 0x60#8 [(61, 0x08#8), (62, 0x3F#8)]) = .ok 0x3F#8 ∧
    (machineAt 0 0x60#8 [(0, 0x88#8), (1, 0x3F#8), (63, 0x02#8)]).Fetches 0x88#8 ∧
    effectiveAddress .indirect 0x3F#8 (machineAt 0 0x60#8 [(0, 0x88#8), (1, 0x3F#8), (63, 0x02#8)]) = .ok 0x02#8 :=
  ⟨by decide, by rfl, by decide, by rfl⟩
theorem witness_BranchToItselfRunsForever :
    (machineAt 62 0x00#8 [(62, 0x10#8), (63, 0x3E#8)]).Fetches 0x10#8 ∧
    (machineAt 62 0x00#8 [(62, 0x10#8), (63, 0x3E#8)]).field.toNat = 62 := by decide
theorem witness_IszSkipLandsOnTheThirdWord :
    (machineAt 60 0x00#8 [(0, 0xFF#8), (60, 0x20#8)]).Fetches 0x20#8 ∧
    effectiveAddress .direct 0x00#8 (machineAt 60 0x00#8 [(0, 0xFF#8), (60, 0x20#8)]) = .ok 0x00#8 ∧
    (machineAt 0 0x00#8 [(0, 0xA0#8), (1, 0x10#8), (0x10, 0x11#8), (0x11, 0xFF#8)]).Fetches 0xA0#8 ∧
    effectiveAddress .indirect 0x10#8 (machineAt 0 0x00#8 [(0, 0xA0#8), (1, 0x10#8), (0x10, 0x11#8), (0x11, 0xFF#8)])
      = .ok 0x11#8 :=
  ⟨by decide, by rfl, by decide, by rfl⟩
/-- A Halted and a Faulted core; the first and the last address that exists. -/
theorem witness_HostReadsTheEndOfARun :
    haltedCore.status ≠ .running ∧ ((machineAt 64 0x00#8 []).raised 0x00#8 64 .fetch).status ≠ .running ∧
    hostRead 0 haltedCore = some 0x00#8 ∧ hostRead 63 haltedCore = some 0x00#8 ∧
    runResult haltedCore = .normalEnd ∧ runResult ((machineAt 64 0x00#8 []).raised 0x00#8 64 .fetch) = .errorEnd ∧
    runResult State.reset = .stillRunning := by decide
theorem witness_IszAndReservedAtEveryConfiguration : OperandCycleStates 0x20#8 0xA0#8 ∧
    BitVec.ofNat 8 ((0xFF#8).toNat + 1) = 0x00#8 ∧ BitVec.ofNat 8 ((0x7F#8).toNat + 1) ≠ 0x00#8 ∧
    (machineAt 63 0x00#8 [(63, 0x44#8)]).Fetches 0x44#8 ∧
    Config.default.reservedOpMode = .nop ∧ atRefuse.reservedOpMode = .refuse := by decide
/-- A fetch of another opcode, a fetch that fails, a core that is not Running. -/
theorem witness_OtherOpcodesIgnoreConfiguration :
    (machineAt 63 0x00#8 [(63, 0x60#8)]).mem.read 63 ∉ [0x20#8, 0xA0#8, 0x44#8, 0x48#8, 0x50#8] ∧
    64 ≤ (machineAt 64 0x00#8 []).pc ∧ haltedCore.status ≠ .running := by decide

end Sys2Proof.Tests
end

/-! PROOFS, shared: the Arithmetic Unit's sum as the addition of bit vectors, the cycle of an operand
instruction built once from its operation, and what a cycle takes from the operations it runs. -/

section

namespace Sys2Proof.Machine

/-! ### The Arithmetic Unit on bit vectors -/

/-- The signed reading of R80 is the two's complement reading of the library. -/
theorem toSigned_eq_toInt (w : Word) : toSigned w = w.toInt := by
  simp [toSigned, BitVec.toInt_eq_msb_cond, BitVec.msb_eq_getLsbD_last]

/-- The normalisation of R81 is the library's word of an integer. -/
theorem toWord_eq_ofInt (x : Int) : toWord x = BitVec.ofInt 8 x := by
  apply BitVec.eq_of_toNat_eq
  simp only [toWord, BitVec.toNat_ofNat, BitVec.toNat_ofInt]
  omega

/-- `add` wraps as the addition of patterns does (R82). -/
theorem add8_eq_add (a b : Word) : add8 a b = a + b := by
  simp [add8, toSigned_eq_toInt, toWord_eq_ofInt, BitVec.ofInt_add]

/-- ISZ's increment, by the unsigned reading of the word. -/
theorem add8_one (v : Word) : add8 v 0x01#8 = BitVec.ofNat 8 (v.toNat + 1) := by
  simp [add8_eq_add, BitVec.ofNat_add]

/-! ### The cycle of an operand instruction -/

/-- Writing IR before an exception is raised gives the state `raised` names (R137). -/
theorem raise_after_fetch (s : State) (op : Word) (a : Nat) (k : AccessKind) :
    raise { addr := a, kind := k } { s with ir := op } = .next (s.raised op a k) := rfl

theorem effectiveAddress_indirect_valid {p : Word} (s : State) (h : p.toNat < 64) :
    effectiveAddress .indirect p s = .ok (s.mem.read p.toNat) := memRead_valid .pointerRead s h

theorem effectiveAddress_indirect_invalid {p : Word} (s : State) (h : 64 ≤ p.toNat) :
    effectiveAddress .indirect p s = .error { addr := p.toNat, kind := .pointerRead } :=
  memRead_invalid .pointerRead s h

/-- The cycle of an operand instruction, from its operation `opn`: the operation has to raise what the
Addressing Resolver raises, and to end as `after` says at an effective address. -/
theorem operandCycleOf_cycle {run : Instr → State → Host.Outcome State Fault Refusal}
    {opn : AddrMode → Word → State → Host.Outcome State Fault Refusal} {o : OperandOp} {dir ind : Word}
    {after : State → Word → Word → State → Prop}
    (hdir : decodeOpcode dir = .operand o false) (hind : decodeOpcode ind = .operand o true)
    (hrunDir : ∀ p s, run (operandInstr o false p) s = opn .direct p s)
    (hrunInd : ∀ p s, run (operandInstr o true p) s = opn .indirect p s)
    (hraise : ∀ {mode p s e}, effectiveAddress mode p s = .error e → opn mode p s = raise e s)
    (hafter : ∀ {mode p ea} (s : State) (op : Word), effectiveAddress mode p { s with ir := op } = .ok ea →
      ∃ t, opn mode p { s with ir := op } = .next t ∧ after s op ea t) :
    OperandCycleOf (cycle run) dir ind after := by
  refine ⟨?noField, ?direct, ?badPointer, ?indirect⟩
  case noField =>
    rintro s op (rfl | rfl) hs h63
    · exact cycle_twoWord_at_63 hs hdir h63
    · exact cycle_twoWord_at_63 hs hind h63
  case direct =>
    intro s hs hpc
    rw [cycle_twoWord hs hdir hpc, hrunDir]
    exact hafter s dir rfl
  case badPointer =>
    intro s hs hpc hp
    rw [cycle_twoWord hs hind hpc, hrunInd, hraise (effectiveAddress_indirect_invalid _ hp), raise_after_fetch]
  case indirect =>
    intro s hs hpc hp
    rw [cycle_twoWord hs hind hpc, hrunInd]
    exact hafter s ind (effectiveAddress_indirect_valid _ hp)

/-! ### What a cycle takes from the operations it runs -/

/-- A cycle depends on its operations only through the one its fetch answers. -/
theorem cycle_congr {run run' : Instr → State → Host.Outcome State Fault Refusal} {s : State}
    (h : s.status = .running → ∀ i t, fetch s = .ok (i, t) → run i t = run' i t) :
    cycle run s = cycle run' s := by
  by_cases hs : s.status = .running
  · rw [cycle_of_running hs, cycle_of_running hs]
    cases hf : fetch s with
    | error t => rfl
    | ok it => exact h hs it.1 it.2 hf
  · rw [cycle_of_not_running hs, cycle_of_not_running hs]

/-- A fetch that succeeds reads an opcode that exists, and it is the first word of the instruction's encoding. -/
theorem encode_of_fetch {s t : State} {i : Instr} (h : fetch s = .ok (i, t)) :
    s.pc < 64 ∧ ∃ rest, encode i = s.mem.read s.pc :: rest := by
  obtain ⟨-, hf⟩ | ⟨hpc, j, hd, hf⟩ | ⟨hpc, o, ind, hd, hf⟩ | ⟨-, o, ind, -, hf⟩ := fetch_cases s
  · simp [hf] at h
  · obtain ⟨rfl, -⟩ : j = i ∧ _ := by simpa [hf] using h
    obtain ⟨-, o, ind, hd', -⟩ | ⟨-, j', hd', he, -⟩ := decodeOpcode_cases (s.mem.read s.pc)
    · simp [hd] at hd'
    · obtain rfl : j = j' := by simpa [hd] using hd'
      exact ⟨hpc, _, he⟩
  · obtain ⟨rfl, -⟩ : operandInstr o ind (s.mem.read (s.pc + 1)) = i ∧ _ := by simpa [hf] using h
    obtain ⟨-, o', ind', hd', he⟩ | ⟨-, j', hd', -⟩ := decodeOpcode_cases (s.mem.read s.pc)
    · obtain ⟨rfl, rfl⟩ : o = o' ∧ ind = ind' := by simpa [hd] using hd'
      exact ⟨by omega, _, (he _).1⟩
    · simp [hd] at hd'
  · simp [hf] at h

end Sys2Proof.Machine

end

/-! PROOFS, the two named parameters (spec/00_scope.md R8): what ISZ and the reserved codes do at every
configuration, and that nothing else depends on one. -/

section

namespace Sys2Proof.Machine

/-! ### ISZ and the reserved codes at every configuration -/

/-- An increment-and-skip at a known effective address, with the increment on unsigned readings (R112). -/
theorem incrementSkipOp_after {mode : AddrMode} {p ea : Word} (cfg : Config) (s : State) (op : Word)
    (h : effectiveAddress mode p { s with ir := op } = .ok ea) :
    ∃ t, incrementSkipOp cfg mode p { s with ir := op } = .next t ∧
      let r := BitVec.ofNat 8 ((s.mem.read ea.toNat).toNat + 1)
      (ea.toNat < 64 →
        MemDiffersAt ea.toNat r s t ∧ SameAcAndStatus s t ∧ t.ir = op ∧
        t.pc = s.pc + if r = 0x00#8 then cfg.iszAdvance.skip else cfg.iszAdvance.noSkip) ∧
      (64 ≤ ea.toNat → t = s.raised op ea.toNat .dataRead) := by
  rw [incrementSkipOp_at h]
  by_cases hea : ea.toNat < 64
  · rw [if_pos hea, add8_one]
    refine ⟨_, rfl, fun _ => ⟨⟨by simp, fun b hb => by simp [hb]⟩, ⟨rfl, rfl, rfl⟩, rfl, rfl⟩, fun hge => ?_⟩
    exact absurd hea (Nat.not_lt.mpr hge)
  · rw [if_neg hea, raise_after_fetch]
    exact ⟨_, rfl, fun hlt => absurd hlt hea, fun _ => rfl⟩

/-- The whole cycle of a reserved code is the shared operation of its opcode. -/
theorem stepAt_reserved {cfg : Config} {s : State} {op : Word} (hop : op ∈ [0x44#8, 0x48#8, 0x50#8])
    (h : s.Fetches op) : stepAt cfg s = reservedOp cfg op { s with ir := op } := by
  simp only [List.mem_cons, List.not_mem_nil, or_false] at hop
  obtain rfl | rfl | rfl := hop
  · exact cycle_oneWord (i := .asl) h rfl
  · exact cycle_oneWord (i := .asr) h rfl
  · exact cycle_oneWord (i := .inc) h rfl

/-- Settles O59: ISZ's cycle from its operation at a known effective address, the reserved codes' cycle
from their shared operation. -/
theorem iszAndReservedAtEveryConfiguration : Obligations.IszAndReservedAtEveryConfiguration := by
  refine fun cfg => ⟨?isz, fun s op hop hs => ?reserved⟩
  case isz =>
    exact operandCycleOf_cycle (run := execAt cfg) (o := .isz) rfl rfl (execAt_isz cfg) (execAt_iszI cfg)
      incrementSkipOp_error (incrementSkipOp_after cfg)
  case reserved =>
    rw [stepAt_reserved hop hs]
    obtain ⟨hmode, hr⟩ | ⟨hmode, hr⟩ := reservedOp_cases (cfg := cfg) (op := op) (s := { s with ir := op })
    · exact ⟨fun _ => hr, fun h => by simp [hmode] at h⟩
    · exact ⟨fun h => by simp [hmode] at h, fun _ => hr⟩

/-! ### What does not depend on the configuration -/

/-- An instruction whose opcode word is neither ISZ's nor a reserved code depends on no parameter. -/
theorem execAt_eq_exec {i : Instr} {op : Word} {rest : List Word} (cfg : Config) (s : State)
    (he : encode i = op :: rest) (hop : op ∉ [0x20#8, 0xA0#8, 0x44#8, 0x48#8, 0x50#8]) :
    execAt cfg i s = exec i s := by
  obtain rfl : (encode i).headD 0x00#8 = op := by rw [he]; rfl
  cases i with
  | isz p | iszI p | asl | asr | inc => simp [encode] at hop
  | _ => rfl

theorem stepAt_default : stepAt Config.default = step :=
  funext fun _ => cycle_congr fun _ i t _ => execAt_default i t

theorem run_coreAt_default (k : Nat) (s : State) :
    Host.Core.run (coreAt Config.default) k s = Host.Core.run Sys2Proof.core k s := by
  unfold coreAt
  rw [stepAt_default]
  rfl

/-- Settles O60: the cycle runs only the instruction its fetch answers, and the opcode word fetched says that
this one depends on no parameter. -/
theorem otherOpcodesIgnoreConfiguration : Obligations.OtherOpcodesIgnoreConfiguration := by
  refine ⟨fun cfg s h => cycle_congr fun hs i t hf => ?_, ⟨rfl, rfl, rfl⟩, execAt_default,
    fun k s => ⟨congrFun stepAt_default s, run_coreAt_default k s⟩⟩
  obtain ⟨hpc, rest, he⟩ := encode_of_fetch hf
  obtain hn | hge | hop := h
  · exact absurd hs hn
  · exact absurd hpc (Nat.not_lt.mpr hge)
  · exact execAt_eq_exec cfg t he hop

end Sys2Proof.Machine

end

/-! PROOFS, the state (spec/10_state.md): everything a cycle of a Running core can end in, said once as the
relations `Raises` and `Completes`, and the obligations of the state's family read off from it. -/

section

namespace Sys2Proof.Machine

/-! ### What an opcode word makes of a cycle -/

/-- AND, ADD, SUB and LDA, direct and indirect (R67). -/
abbrev valueCodes : List Word := [0x01#8, 0x81#8, 0x02#8, 0x82#8, 0x03#8, 0x83#8, 0x04#8, 0x84#8]

/-- The operand form an opcode of the operand group asks for: bit 7 set is indirect (R61, R65). -/
def opcodeMode (op : Word) : AddrMode := if 0x80 ≤ op.toNat then .indirect else .direct

theorem opcodeMode_of_lt {op : Word} (h : op.toNat < 0x80) : opcodeMode op = .direct :=
  if_neg (Nat.not_le.mpr h)

theorem opcodeMode_of_ge {op : Word} (h : 0x80 ≤ op.toNat) : opcodeMode op = .indirect := if_pos h

/-- The direct form's effective address is the address field. -/
theorem ea_of_direct {op p ea : Word} {s : State} (h : op.toNat < 0x80)
    (hea : effectiveAddress (opcodeMode op) p s = .ok ea) : ea = p := by
  rw [opcodeMode_of_lt h] at hea
  cases hea
  rfl

/-- The indirect form's effective address is the word the address field points at, which exists. -/
theorem ea_of_indirect {op p ea : Word} {s : State} (h : 0x80 ≤ op.toNat)
    (hea : effectiveAddress (opcodeMode op) p s = .ok ea) : p.toNat < 64 ∧ ea = s.mem.read p.toNat := by
  obtain ⟨ea', hea', hind, -⟩ | ⟨-, -, he⟩ := effectiveAddress_cases (opcodeMode op) p s
  · obtain rfl : ea = ea' := by simpa [hea] using hea'
    exact hind (opcodeMode_of_ge h)
  · simp [hea] at he

/-- A word that decodes as an operation with an address field is the opcode of that operation's encoding. -/
theorem encode_of_decodeOpcode_operand {op : Word} {o : OperandOp} {ind : Bool}
    (h : decodeOpcode op = .operand o ind) :
    op ∈ operandCodes ∧ ∀ p, encode (operandInstr o ind p) = [op, p] := by
  obtain ⟨hop, o', ind', hd, he⟩ | ⟨-, i, hd, -⟩ := decodeOpcode_cases op
  · obtain ⟨rfl, rfl⟩ : o = o' ∧ ind = ind' := by simpa [h] using hd
    exact ⟨hop, fun p => (he p).1⟩
  · simp [h] at hd

/-- A word that decodes as a one-word instruction is the whole encoding of that instruction. -/
theorem encode_of_decodeOpcode_oneWord {op : Word} {i : Instr} (h : decodeOpcode op = .oneWord i) :
    op ∉ operandCodes ∧ encode i = [op] ∧ i.wf = true := by
  obtain ⟨-, o, ind, hd, -⟩ | ⟨hop, j, hd, he⟩ := decodeOpcode_cases op
  · simp [h] at hd
  · obtain rfl : i = j := by simpa [h] using hd
    exact ⟨hop, he⟩

/-- The shared operation behind each opcode that takes an address field, with the opcode's operand form. -/
theorem operand_shape {op : Word} {o : OperandOp} {ind : Bool} (h : decodeOpcode op = .operand o ind) :
    (op ∈ valueCodes ∧ ∃ f, ∀ p s, exec (operandInstr o ind p) s = valueOp f (opcodeMode op) p s) ∨
    (op ∈ [0x08#8, 0x88#8] ∧ ∀ p s, exec (operandInstr o ind p) s = storeOp (opcodeMode op) p s) ∨
    (op ∈ [0x10#8, 0x90#8] ∧ ∀ p s, exec (operandInstr o ind p) s = branchOp (opcodeMode op) p s) ∨
    (op ∈ [0x20#8, 0xA0#8] ∧
      ∀ p s, exec (operandInstr o ind p) s = incrementSkipOp Config.default (opcodeMode op) p s) := by
  obtain rfl : (encode (operandInstr o ind 0x00#8)).headD 0x00#8 = op := by
    rw [(encode_of_decodeOpcode_operand h).2]; rfl
  cases o with
  | and | add | sub => exact .inl (by cases ind <;> exact ⟨by decide, _, fun _ _ => rfl⟩)
  | lda => exact .inl (by cases ind <;> exact ⟨by decide, fun _ v => v, fun _ _ => rfl⟩)
  | sta => exact .inr (.inl (by cases ind <;> exact ⟨by decide, fun _ _ => rfl⟩))
  | bun => exact .inr (.inr (.inl (by cases ind <;> exact ⟨by decide, fun _ _ => rfl⟩)))
  | isz => exact .inr (.inr (.inr (by cases ind <;> exact ⟨by decide, fun _ _ => rfl⟩)))

/-- A one-word opcode is HLT, or advances PC by 1 and changes at most AC, which only CLA and CMA do. -/
theorem oneWord_shape {op : Word} {i : Instr} (h : decodeOpcode op = .oneWord i) :
    (op = 0x60#8 ∧ ∀ s, exec i s = .next { s with status := .halted }) ∨
    (op ≠ 0x60#8 ∧ ∃ g : Word → Word, (op ∉ [0x41#8, 0x42#8] → g = id) ∧
      ∀ s, exec i s = .next { s with ac := g s.ac, pc := s.pc + 1 }) := by
  obtain ⟨-, he, hwf⟩ := encode_of_decodeOpcode_oneWord h
  cases i with
  | hlt => exact .inl ⟨by simpa [encode, eq_comm] using he, fun _ => rfl⟩
  | undef op' =>
    obtain rfl : op' = op := by simpa [encode] using he
    exact .inr ⟨by rintro rfl; simp [Instr.wf, definedCodes] at hwf, id, fun _ => rfl, fun _ => rfl⟩
  | cla =>
    obtain rfl := List.head_eq_of_cons_eq he
    exact .inr ⟨by decide, fun _ => 0x00#8, fun hn => absurd (by decide) hn, fun _ => rfl⟩
  | cma =>
    obtain rfl := List.head_eq_of_cons_eq he
    exact .inr ⟨by decide, not8, fun hn => absurd (by decide) hn, fun _ => rfl⟩
  | asl | asr | inc =>
    obtain rfl := List.head_eq_of_cons_eq he
    exact .inr ⟨by decide, id, fun _ => rfl, fun _ => rfl⟩
  | _ => simp [encode] at he

/-! ### What a cycle of a Running core can end in -/

/-- The OutOfRange that a cycle beginning in `s` can raise, one constructor for each access kind (R131). -/
inductive Raises (s : State) : FaultRecord → Prop where
  | fetch (hpc : 64 ≤ s.pc) : Raises s { addr := s.pc, kind := .fetch }
  | operandFetch (hpc : s.pc = 63) (hop : s.mem.read s.pc ∈ operandCodes) :
      Raises s { addr := 64, kind := .operandFetch }
  | pointerRead (hpc : s.pc < 63) (hop : s.mem.read s.pc ∈ operandCodes)
      (hmode : opcodeMode (s.mem.read s.pc) = .indirect) (hp : 64 ≤ s.field.toNat) :
      Raises s { addr := s.field.toNat, kind := .pointerRead }
  | dataRead {ea : Word} (hpc : s.pc < 63) (hop : s.mem.read s.pc ∈ valueCodes ++ [0x20#8, 0xA0#8])
      (hea : effectiveAddress (opcodeMode (s.mem.read s.pc)) s.field s = .ok ea) (hge : 64 ≤ ea.toNat) :
      Raises s { addr := ea.toNat, kind := .dataRead }
  | dataWrite {ea : Word} (hpc : s.pc < 63) (hop : s.mem.read s.pc ∈ [0x08#8, 0x88#8])
      (hea : effectiveAddress (opcodeMode (s.mem.read s.pc)) s.field s = .ok ea) (hge : 64 ≤ ea.toNat) :
      Raises s { addr := ea.toNat, kind := .dataWrite }

/-- The states in which a cycle beginning in `s` can end without an exception, one constructor for each shape
an instruction has, with the opcodes of that shape. Which word AC takes is left open here (`f`, `g`): the cycle
of each value-consuming instruction says it. -/
inductive Completes (s : State) : State → Prop where
  | value {ea : Word} (f : Word → Word → Word) (hpc : s.pc < 63) (hop : s.mem.read s.pc ∈ valueCodes)
      (hea : effectiveAddress (opcodeMode (s.mem.read s.pc)) s.field s = .ok ea) (hlt : ea.toNat < 64) :
      Completes s { s with ir := s.mem.read s.pc, ac := f s.ac (s.mem.read ea.toNat), pc := s.pc + 2 }
  | store {ea : Word} (hpc : s.pc < 63) (hop : s.mem.read s.pc ∈ [0x08#8, 0x88#8])
      (hea : effectiveAddress (opcodeMode (s.mem.read s.pc)) s.field s = .ok ea) (hlt : ea.toNat < 64) :
      Completes s { s with ir := s.mem.read s.pc, mem := s.mem.write ea.toNat s.ac, pc := s.pc + 2 }
  | branch {ea : Word} (hpc : s.pc < 63) (hop : s.mem.read s.pc ∈ [0x10#8, 0x90#8])
      (hea : effectiveAddress (opcodeMode (s.mem.read s.pc)) s.field s = .ok ea) :
      Completes s { s with ir := s.mem.read s.pc, pc := ea.toNat }
  | incrementSkip {ea : Word} (hpc : s.pc < 63) (hop : s.mem.read s.pc ∈ [0x20#8, 0xA0#8])
      (hea : effectiveAddress (opcodeMode (s.mem.read s.pc)) s.field s = .ok ea) (hlt : ea.toNat < 64) :
      Completes s { s with
        ir := s.mem.read s.pc
        mem := s.mem.write ea.toNat (add8 (s.mem.read ea.toNat) 0x01#8)
        pc := s.pc + iszNetAdvance Config.default (add8 (s.mem.read ea.toNat) 0x01#8) }
  | halt (hpc : s.pc < 64) (hop : s.mem.read s.pc = 0x60#8) :
      Completes s { s with ir := s.mem.read s.pc, status := .halted }
  | oneWord (g : Word → Word) (hpc : s.pc < 64) (hop : s.mem.read s.pc ∉ operandCodes)
      (hhlt : s.mem.read s.pc ≠ 0x60#8) (hg : s.mem.read s.pc ∉ [0x41#8, 0x42#8] → g = id) :
      Completes s { s with ir := s.mem.read s.pc, ac := g s.ac, pc := s.pc + 1 }

/-- IR after OutOfRange of kind `kind`: the opcode fetched, or IR's old value when that fetch failed (R137). -/
def irAfterRaise (s : State) (kind : AccessKind) : Word := if kind = .fetch then s.ir else s.mem.read s.pc

/-- `t` is the state after the cycle that begins in `s` raised OutOfRange with the record `e` (R137). -/
def RaisesTo (s : State) (e : FaultRecord) (t : State) : Prop :=
  Raises s e ∧ t = s.raised (irAfterRaise s e.kind) e.addr e.kind

/-- The Addressing Resolver raises only the pointer's OutOfRange, in the indirect form. -/
theorem raisesTo_of_effectiveAddress_error {s : State} {e : FaultRecord} (hpc : s.pc < 63)
    (hop : s.mem.read s.pc ∈ operandCodes)
    (he : effectiveAddress (opcodeMode (s.mem.read s.pc)) s.field s = .error e) :
    RaisesTo s e (takeOutOfRange e { s with ir := s.mem.read s.pc }) := by
  obtain ⟨ea, hea, -⟩ | ⟨hmode, hp, he'⟩ := effectiveAddress_cases (opcodeMode (s.mem.read s.pc)) s.field s
  · simp [hea] at he
  · obtain rfl : _ = e := by simpa [he] using he'.symm
    exact ⟨.pointerRead hpc hop hmode hp, rfl⟩

/-- The cycle of a two-word instruction whose address field exists. -/
theorem raises_or_completes_of_operand {s t : State} {o : OperandOp} {ind : Bool} (hpc : s.pc < 63)
    (hd : decodeOpcode (s.mem.read s.pc) = .operand o ind)
    (h : exec (operandInstr o ind s.field) { s with ir := s.mem.read s.pc } = .next t) :
    (∃ e, RaisesTo s e t) ∨ Completes s t := by
  have hcode := (encode_of_decodeOpcode_operand hd).1
  obtain ⟨hop, f, hx⟩ | ⟨hop, hx⟩ | ⟨hop, hx⟩ | ⟨hop, hx⟩ := operand_shape hd <;> rw [hx] at h
  · obtain ⟨ea, hea, hlt, rfl⟩ | ⟨ea, hea, hge, rfl⟩ | ⟨e, he, rfl⟩ := valueOp_cases h
    · exact .inr (.value f hpc hop hea hlt)
    · exact .inl ⟨_, .dataRead hpc (List.mem_append_left _ hop) hea hge, rfl⟩
    · exact .inl ⟨e, raisesTo_of_effectiveAddress_error hpc hcode he⟩
  · obtain ⟨ea, hea, hlt, rfl⟩ | ⟨ea, hea, hge, rfl⟩ | ⟨e, he, rfl⟩ := storeOp_cases h
    · exact .inr (.store hpc hop hea hlt)
    · exact .inl ⟨_, .dataWrite hpc hop hea hge, rfl⟩
    · exact .inl ⟨e, raisesTo_of_effectiveAddress_error hpc hcode he⟩
  · obtain ⟨ea, hea, rfl⟩ | ⟨e, he, rfl⟩ := branchOp_cases h
    · exact .inr (.branch hpc hop hea)
    · exact .inl ⟨e, raisesTo_of_effectiveAddress_error hpc hcode he⟩
  · obtain ⟨ea, hea, hlt, rfl⟩ | ⟨ea, hea, hge, rfl⟩ | ⟨e, he, rfl⟩ := incrementSkipOp_cases h
    · exact .inr (.incrementSkip hpc hop hea hlt)
    · exact .inl ⟨_, .dataRead hpc (List.mem_append_right _ hop) hea hge, rfl⟩
    · exact .inl ⟨e, raisesTo_of_effectiveAddress_error hpc hcode he⟩

theorem step_of_not_running {s : State} (h : s.status ≠ .running) : step s = .next s := cycle_of_not_running h

/-- A step of a Running core raises OutOfRange or completes its instruction (R92). -/
theorem raises_or_completes {s t : State} (hs : s.status = .running) (h : step s = .next t) :
    (∃ e, RaisesTo s e t) ∨ Completes s t := by
  rw [step_of_running hs] at h
  obtain ⟨hpc, hf⟩ | ⟨hpc, i, hd, hf⟩ | ⟨hpc, o, ind, hd, hf⟩ | ⟨hpc, o, ind, hd, hf⟩ := fetch_cases s <;>
    simp only [hf] at h
  · cases h
    exact .inl ⟨_, .fetch hpc, rfl⟩
  · obtain ⟨hop, hx⟩ | ⟨hhlt, g, hg, hx⟩ := oneWord_shape hd <;> rw [hx] at h <;> cases h
    · exact .inr (.halt hpc hop)
    · exact .inr (.oneWord g hpc (encode_of_decodeOpcode_oneWord hd).1 hhlt hg)
  · exact raises_or_completes_of_operand hpc hd h
  · cases h
    exact .inl ⟨_, .operandFetch hpc (encode_of_decodeOpcode_operand hd).1, rfl⟩

/-! ### The facts of the two outcomes -/

theorem Completes.pc_lt {s t : State} (h : Completes s t) : s.pc < 64 := by
  cases h <;> omega

theorem Completes.ir_eq {s t : State} (h : Completes s t) : t.ir = s.mem.read s.pc := by
  cases h <;> rfl

theorem Completes.fault_eq {s t : State} (h : Completes s t) : t.fault = s.fault := by
  cases h <;> rfl

/-- A cycle that completes leaves the run state alone, HLT's apart. -/
theorem Completes.status_eq {s t : State} (h : Completes s t) :
    t.status = s.status ∨ (t.status = .halted ∧ s.mem.read s.pc = 0x60#8) := by
  cases h with
  | halt _ hop => exact .inr ⟨rfl, hop⟩
  | _ => exact .inl rfl

theorem Completes.not_faulted {s t : State} (hs : s.status = .running) (h : Completes s t) :
    t.status ≠ .faulted := by
  obtain hst | ⟨hst, -⟩ := h.status_eq <;> simp [hst, hs]

/-- The advance of ISZ at the default parameters (R112). -/
theorem iszNetAdvance_default (r : Word) : iszNetAdvance Config.default r = if r = 0x00#8 then 3 else 2 := rfl

/-- PC after a completed cycle is a reachable value (R23). -/
theorem Completes.pc_le {s t : State} (h : Completes s t) : t.pc ≤ 255 := by
  cases h with
  | branch _ _ hea => exact Nat.le_of_lt_succ (BitVec.isLt _)
  | incrementSkip hpc _ _ _ =>
    simp only [iszNetAdvance_default]
    split <;> omega
  | halt hpc _ => exact hpc.le.trans (by decide)
  | value _ hpc | store hpc | oneWord _ hpc => show s.pc + _ ≤ 255; omega

theorem Completes.mem_wf {s t : State} (h : Completes s t) (hm : s.mem.wf = true) : t.mem.wf = true := by
  cases h with
  | store _ _ _ hlt | incrementSkip _ _ _ hlt => exact Memory.wf_write _ hm (by simp [validAddress, hlt])
  | _ => exact hm

/-- The address that raised does not exist (R131). -/
theorem Raises.addr_ge {s : State} {e : FaultRecord} (h : Raises s e) : 64 ≤ e.addr := by
  cases h with
  | operandFetch => exact le_rfl
  | fetch h | pointerRead _ _ _ h | dataRead _ _ _ h | dataWrite _ _ _ h => exact h

/-- The record of a cycle fits the state it was raised in, and every state with the same PC. -/
theorem Raises.fits {s t : State} {e : FaultRecord} (h : Raises s e) (hpc : s.pc ≤ 255) (hst : t.pc = s.pc) :
    e.fits t := by
  refine ⟨h.addr_ge, ?_, ?_⟩
  · cases h with
    | fetch => exact hpc
    | operandFetch => decide
    | pointerRead | dataRead | dataWrite => exact Nat.le_of_lt_succ (BitVec.isLt _)
  · cases h with
    | fetch => exact hst.symm
    | operandFetch h => exact ⟨hst.trans h, rfl⟩
    | pointerRead h | dataRead h | dataWrite h => exact hst ▸ h

/-! ### The first access out of range -/

/-- Up to its effective address every access of the cycle of a two-word instruction exists. -/
theorem firstBadAccess_of_ea {s : State} {ea : Word} (hpc : s.pc < 63) (hop : s.mem.read s.pc ∈ operandCodes)
    (hea : effectiveAddress (opcodeMode (s.mem.read s.pc)) s.field s = .ok ea) :
    firstBadAccess s =
      (dataAccesses (s.mem.read s.pc) ea.toNat).find? (fun x => decide (64 ≤ x.1)) := by
  have h0 : ¬ 64 ≤ s.pc := by omega
  have h1 : ¬ 64 ≤ s.pc + 1 := by omega
  by_cases hind : 0x80 ≤ (s.mem.read s.pc).toNat
  · obtain ⟨hp, rfl⟩ := ea_of_indirect hind hea
    rw [State.field] at hp
    simp [firstBadAccess, cycleAccesses, hop, hind, h0, h1, Nat.not_le.mpr hp, State.field]
  · obtain rfl := ea_of_direct (Nat.lt_of_not_le hind) hea
    simp [firstBadAccess, cycleAccesses, hop, hind, h0, h1, State.field]

theorem dataAccesses_of_read {op : Word} (ea : Nat) (h : op ∈ valueCodes ++ [0x20#8, 0xA0#8]) :
    ∃ l, dataAccesses op ea = (ea, .dataRead) :: l := by
  simp only [List.cons_append, List.nil_append, List.mem_cons, List.not_mem_nil, or_false] at h
  rcases h with rfl | rfl | rfl | rfl | rfl | rfl | rfl | rfl | rfl | rfl <;> exact ⟨_, rfl⟩

theorem dataAccesses_of_write {op : Word} (ea : Nat) (h : op ∈ [0x08#8, 0x88#8]) :
    dataAccesses op ea = [(ea, .dataWrite)] := by
  simp only [List.mem_cons, List.not_mem_nil, or_false] at h
  rcases h with rfl | rfl <;> rfl

theorem dataAccesses_of_branch {op : Word} (ea : Nat) (h : op ∈ [0x10#8, 0x90#8]) : dataAccesses op ea = [] := by
  simp only [List.mem_cons, List.not_mem_nil, or_false] at h
  rcases h with rfl | rfl <;> rfl

/-- Every data access of a cycle is at its effective address (R44). -/
theorem addr_of_mem_dataAccesses (op : Word) (ea : Nat) : ∀ x ∈ dataAccesses op ea, x.1 = ea := by
  unfold dataAccesses
  split_ifs <;> simp

theorem Raises.firstBadAccess_eq {s : State} {e : FaultRecord} (h : Raises s e) :
    firstBadAccess s = some (e.addr, e.kind) := by
  cases h with
  | fetch hpc => simp [firstBadAccess, cycleAccesses, hpc]
  | operandFetch hpc hop =>
    rw [hpc] at hop
    simp [firstBadAccess, cycleAccesses, hpc, hop]
  | pointerRead hpc hop hmode hp =>
    have hind : 0x80 ≤ (s.mem.read s.pc).toNat := by
      by_contra hn
      simp [opcodeMode, hn] at hmode
    rw [State.field] at hp
    simp [firstBadAccess, cycleAccesses, hop, hind, hp, State.field, show ¬ 64 ≤ s.pc by omega,
      show ¬ 64 ≤ s.pc + 1 by omega]
  | @dataRead ea hpc hop hea hge =>
    have hcode : valueCodes ++ [0x20#8, 0xA0#8] ⊆ operandCodes := by decide
    obtain ⟨l, hl⟩ := dataAccesses_of_read ea.toNat hop
    simp [firstBadAccess_of_ea hpc (hcode hop) hea, hl, hge]
  | dataWrite hpc hop hea hge =>
    have hcode : [0x08#8, 0x88#8] ⊆ operandCodes := by decide
    simp [firstBadAccess_of_ea hpc (hcode hop) hea, dataAccesses_of_write _ hop, hge]

/-- A two-word instruction whose effective address exists makes no access out of range. -/
theorem firstBadAccess_of_valid_ea {s : State} {ea : Word} (hpc : s.pc < 63) (hop : s.mem.read s.pc ∈ operandCodes)
    (hea : effectiveAddress (opcodeMode (s.mem.read s.pc)) s.field s = .ok ea) (hlt : ea.toNat < 64) :
    firstBadAccess s = none := by
  rw [firstBadAccess_of_ea hpc hop hea, List.find?_eq_none]
  intro x hx
  simp [addr_of_mem_dataAccesses _ _ x hx, hlt]

theorem firstBadAccess_of_oneWord {s : State} (hpc : s.pc < 64) (hop : s.mem.read s.pc ∉ operandCodes) :
    firstBadAccess s = none := by
  simp [firstBadAccess, cycleAccesses, hop, hpc]

theorem Completes.firstBadAccess_eq {s t : State} (h : Completes s t) : firstBadAccess s = none := by
  cases h with
  | value _ hpc hop hea hlt =>
    exact firstBadAccess_of_valid_ea hpc ((by decide : valueCodes ⊆ operandCodes) hop) hea hlt
  | store hpc hop hea hlt =>
    exact firstBadAccess_of_valid_ea hpc ((by decide : [0x08#8, 0x88#8] ⊆ operandCodes) hop) hea hlt
  | incrementSkip hpc hop hea hlt =>
    exact firstBadAccess_of_valid_ea hpc ((by decide : [0x20#8, 0xA0#8] ⊆ operandCodes) hop) hea hlt
  | branch hpc hop hea =>
    have hcode : [0x10#8, 0x90#8] ⊆ operandCodes := by decide
    simp [firstBadAccess_of_ea hpc (hcode hop) hea, dataAccesses_of_branch _ hop]
  | halt hpc hop => exact firstBadAccess_of_oneWord hpc (hop ▸ by decide)
  | oneWord _ hpc hop => exact firstBadAccess_of_oneWord hpc hop

/-! ### The invariant -/

theorem RaisesTo.inv {s t : State} {e : FaultRecord} (hinv : s.Inv) (h : RaisesTo s e t) : t.Inv := by
  obtain ⟨hr, rfl⟩ := h
  exact {
    mem_wf := hinv.mem_wf
    pc_le := hinv.pc_le
    fault_iff := by simp
    fault_fits := by
      intro e' he'
      obtain rfl : e = e' := by simpa using he'
      exact hr.fits hinv.pc_le rfl
    halted_ir := by simp }

theorem Completes.inv {s t : State} (hs : s.status = .running) (hinv : s.Inv) (h : Completes s t) : t.Inv := by
  have hsf : s.fault = none := by simpa [hs] using hinv.fault_iff
  have htf : t.fault = none := h.fault_eq.trans hsf
  exact {
    mem_wf := h.mem_wf hinv.mem_wf
    pc_le := h.pc_le
    fault_iff := by simp [htf, h.not_faulted hs]
    fault_fits := by simp [htf]
    halted_ir := by
      intro hhalt
      cases h with
      | halt hpc hop => exact ⟨hop, hpc⟩
      | _ => simp [hs] at hhalt }

/-- Settles O21: the state after an exception and the state after a completed cycle both meet the invariant. -/
theorem stepKeepsInv : Obligations.StepKeepsInv := by
  intro s t hinv h
  by_cases hs : s.status = .running
  · obtain ⟨e, hr⟩ | hc := raises_or_completes hs h
    · exact hr.inv hinv
    · exact hc.inv hs hinv
  · obtain rfl : s = t := by simpa [step_of_not_running hs] using h
    exact hinv

/-! ### PC, AC and IR over a cycle -/

/-- Settles O10: an exception keeps PC, and each shape of completed cycle has one row of R25. -/
theorem pcAfterCycle : Obligations.PcAfterCycle := by
  intro s t hs h op p pointed
  obtain ⟨e, -, rfl⟩ | hc := raises_or_completes hs h
  · exact ⟨fun _ => rfl, fun hn => absurd rfl hn⟩
  · refine ⟨fun hf => absurd hf (hc.not_faulted hs), fun _ => ?_⟩
    cases hc with
    | value f hpc hop hea hlt =>
      simp only [List.mem_cons, List.not_mem_nil, or_false] at hop
      rcases hop with hcode | hcode | hcode | hcode | hcode | hcode | hcode | hcode <;> simp [op, hcode]
    | store hpc hop hea hlt =>
      obtain hcode | hcode : op = 0x08#8 ∨ op = 0x88#8 := by simpa using hop
      all_goals simp [hcode]
    | branch hpc hop hea =>
      obtain hcode | hcode : op = 0x10#8 ∨ op = 0x90#8 := by simpa using hop
      · have hp := ea_of_direct (hcode ▸ by decide : op.toNat < 0x80) hea
        simp [hcode, hp, p]
      · have hp := (ea_of_indirect (hcode ▸ by decide : 0x80 ≤ op.toNat) hea).2
        simp [hcode, hp, p, pointed]
    | incrementSkip hpc hop hea hlt =>
      obtain hcode | hcode : op = 0x20#8 ∨ op = 0xA0#8 := by simpa using hop
      · have hp := ea_of_direct (hcode ▸ by decide : op.toNat < 0x80) hea
        simp [hcode, hp, p, iszNetAdvance_default]
      · have hp := (ea_of_indirect (hcode ▸ by decide : 0x80 ≤ op.toNat) hea).2
        simp [hcode, hp, p, pointed, iszNetAdvance_default]
    | halt hpc hop => simp [op, hop]
    | oneWord g hpc hop hhlt hg =>
      simp only [operandCodes, List.mem_cons, List.not_mem_nil, or_false, not_or] at hop
      simp [op, hop, hhlt]

/-- Settles O14: a completed cycle leaves Running only by HLT, and then no access was out of range. -/
theorem runningEndsOnlyByHltOrOutOfRange : Obligations.RunningEndsOnlyByHltOrOutOfRange := by
  intro s t hs h hn
  obtain ⟨e, hr, rfl⟩ | hc := raises_or_completes hs h
  · exact .inr ⟨rfl, e.addr, e.kind, hr.firstBadAccess_eq, hr.addr_ge⟩
  · obtain hst | ⟨hst, hop⟩ := hc.status_eq
    · exact absurd (hst.trans hs) hn
    · exact .inl ⟨hst, hc.pc_lt, hop, hc.firstBadAccess_eq⟩

/-- A completed cycle keeps AC unless its opcode is that of AND, ADD, SUB, LDA, CLA or CMA (R21). -/
theorem Completes.ac_eq {s t : State} (h : Completes s t)
    (hop : s.mem.read s.pc ∉ valueCodes ++ [0x41#8, 0x42#8]) : t.ac = s.ac := by
  cases h with
  | value _ _ hv => exact absurd (List.mem_append_left _ hv) hop
  | oneWord g _ _ _ hg =>
    have hid : g = id := hg fun hm => hop (List.mem_append_right _ hm)
    simp [hid]
  | _ => rfl

/-- Settles O18: neither an exception nor another opcode changes AC. -/
theorem acWriters : Obligations.AcWriters := by
  intro s t h hac
  by_cases hs : s.status = .running
  · refine ⟨hs, ?_⟩
    obtain ⟨e, -, rfl⟩ | hc := raises_or_completes hs h
    · exact absurd rfl hac
    · by_contra hop
      exact hac (hc.ac_eq hop)
  · obtain rfl : s = t := by simpa [step_of_not_running hs] using h
    exact absurd rfl hac

/-- IR after a step of a Running core that raised: the opcode where the fetch succeeded (R27, R137). -/
theorem Raises.irAfterRaise_eq {s : State} {e : FaultRecord} (h : Raises s e) :
    (s.pc < 64 → irAfterRaise s e.kind = s.mem.read s.pc) ∧ (64 ≤ s.pc → irAfterRaise s e.kind = s.ir) := by
  cases h with
  | fetch hpc => exact ⟨fun hlt => absurd hpc (Nat.not_le.mpr hlt), fun _ => rfl⟩
  | operandFetch hpc | pointerRead hpc | dataRead hpc | dataWrite hpc => exact ⟨fun _ => rfl, fun hge => by omega⟩

/-- IR after a step of a Running core: the word fetched, or its old value where the fetch failed (R27). -/
theorem ir_of_step {s t : State} (hs : s.status = .running) (h : step s = .next t) :
    (s.pc < 64 → t.ir = s.mem.read s.pc) ∧ (64 ≤ s.pc → t.ir = s.ir) := by
  obtain ⟨e, hr, rfl⟩ | hc := raises_or_completes hs h
  · exact hr.irAfterRaise_eq
  · exact ⟨fun _ => hc.ir_eq, fun hge => absurd hc.pc_lt (Nat.not_lt.mpr hge)⟩

/-! ### Operations that do not read a register -/

/-- `s` with AC and IR changed through `a` and `r`. -/
def State.mapRegs (a r : Word → Word) (s : State) : State := { s with ac := a s.ac, ir := r s.ir }

/-- `opn` answers a next state, and the change `u` of the state goes through it: what `u` changes decides
nothing else of the answer and is not changed by `opn` itself. -/
def CommutesWith (u : State → State) (opn : State → Host.Outcome State Fault Refusal) : Prop :=
  ∀ s, ∃ t, opn s = .next t ∧ opn (u s) = .next (u t)

/-- An operation that raises what the Addressing Resolver raises, and at an effective address that exists ends
in `done`, commutes with every change of AC and IR that `done` commutes with. -/
theorem commutesWith_of_ea {opn : State → Host.Outcome State Fault Refusal} {a r : Word → Word} {mode : AddrMode}
    {p : Word} {done : Word → State → State} {kind : AccessKind}
    (herror : ∀ s e, effectiveAddress mode p s = .error e → opn s = raise e s)
    (hat : ∀ s ea, effectiveAddress mode p s = .ok ea →
      opn s = if ea.toNat < 64 then .next (done ea s) else raise { addr := ea.toNat, kind := kind } s)
    (hdone : ∀ ea s, done ea (s.mapRegs a r) = (done ea s).mapRegs a r) :
    CommutesWith (State.mapRegs a r) opn := by
  intro s
  obtain ⟨ea, hea, -⟩ | ⟨-, -, he⟩ := effectiveAddress_cases mode p s
  · by_cases hlt : ea.toNat < 64
    · have hu : opn (s.mapRegs a r) = .next (done ea (s.mapRegs a r)) :=
        (hat (s.mapRegs a r) ea hea).trans (if_pos hlt)
      exact ⟨_, (hat s ea hea).trans (if_pos hlt), hdone ea s ▸ hu⟩
    · exact ⟨_, (hat s ea hea).trans (if_neg hlt), (hat (s.mapRegs a r) ea hea).trans (if_neg hlt)⟩
  · exact ⟨_, herror s _ he, herror (s.mapRegs a r) _ he⟩

section
variable (a r : Word → Word) (mode : AddrMode) (p : Word)

theorem branchOp_commutes : CommutesWith (State.mapRegs a r) (branchOp mode p) := by
  intro s
  obtain ⟨ea, hea, -⟩ | ⟨-, -, he⟩ := effectiveAddress_cases mode p s
  · exact ⟨_, branchOp_at hea, branchOp_at (s := s.mapRegs a r) hea⟩
  · exact ⟨_, branchOp_error he, branchOp_error (s := s.mapRegs a r) he⟩

theorem incrementSkipOp_commutes (cfg : Config) :
    CommutesWith (State.mapRegs a r) (incrementSkipOp cfg mode p) :=
  commutesWith_of_ea (fun _ _ => incrementSkipOp_error) (fun _ _ => incrementSkipOp_at) fun _ _ => rfl

theorem valueOp_commutes (f : Word → Word → Word) : CommutesWith (State.mapRegs id r) (valueOp f mode p) :=
  commutesWith_of_ea (fun _ _ => valueOp_error) (fun _ _ => valueOp_at) fun _ _ => rfl

theorem storeOp_commutes : CommutesWith (State.mapRegs id r) (storeOp mode p) :=
  commutesWith_of_ea (fun _ _ => storeOp_error) (fun _ _ => storeOp_at) fun _ _ => rfl

end

/-- No instruction reads or writes IR (R27). -/
theorem exec_commutes_ir (r : Word → Word) (i : Instr) : CommutesWith (State.mapRegs id r) (exec i) := by
  obtain ⟨f, mode, p, hx⟩ | ⟨mode, p, hx⟩ | ⟨mode, p, hx⟩ | ⟨mode, p, hx⟩ | ⟨-, hx⟩ | ⟨g, hx⟩ := exec_shape i
  · exact funext hx ▸ valueOp_commutes r mode p f
  · exact funext hx ▸ storeOp_commutes r mode p
  · exact funext hx ▸ branchOp_commutes id r mode p
  · exact funext hx ▸ incrementSkipOp_commutes id r mode p Config.default
  · exact fun s => ⟨_, hx s, hx _⟩
  · exact fun s => ⟨_, hx s, hx _⟩

/-- Settles O20: IR from the fetch of the cycle; after a completed HLT that fetch read 0x60. -/
theorem irHoldsTheFetchedOpcode : Obligations.IrHoldsTheFetchedOpcode := by
  refine ⟨fun s t hs h => ?_, fun i s t x h => ?_⟩
  · obtain ⟨hlt, hge⟩ := ir_of_step hs h
    refine ⟨hlt, hge, fun hhalt => ?_⟩
    obtain ⟨e, -, rfl⟩ | hc := raises_or_completes hs h
    · simp at hhalt
    · obtain hst | ⟨-, hop⟩ := hc.status_eq
      · simp [hhalt, hs] at hst
      · exact hc.ir_eq.trans hop
  · have hset (y : Word) : exec i { s with ir := y } = .next { t with ir := y } := by
      obtain ⟨t', ht, hu⟩ := exec_commutes_ir (fun _ => y) i s
      obtain rfl : t = t' := by simpa [h] using ht
      exact hu
    have hself : t = { t with ir := s.ir } := by simpa [h] using hset s.ir
    exact ⟨by rw [hself], hset x⟩

/-- BUN, ISZ, HLT, the reserved codes and the undefined opcodes neither read nor write AC (R21). -/
theorem exec_commutes_ac (a : Word → Word) (p op : Word) :
    ∀ i ∈ [Instr.bun p, .bunI p, .isz p, .iszI p, .hlt, .asl, .asr, .inc, .undef op],
      CommutesWith (State.mapRegs a id) (exec i) := by
  simp only [List.forall_mem_cons, List.not_mem_nil, false_implies, implies_true, and_true]
  exact ⟨branchOp_commutes a id .direct p, branchOp_commutes a id .indirect p,
    incrementSkipOp_commutes a id .direct p Config.default, incrementSkipOp_commutes a id .indirect p Config.default,
    fun _ => ⟨_, rfl, rfl⟩, fun _ => ⟨_, rfl, rfl⟩, fun _ => ⟨_, rfl, rfl⟩, fun _ => ⟨_, rfl, rfl⟩,
    fun _ => ⟨_, rfl, rfl⟩⟩

/-- LDA overwrites AC with its operand; where there is none it leaves AC as it was. -/
theorem exec_lda_setAc {i : Instr} {mode : AddrMode} {p : Word} (s : State) (x : Word)
    (hi : (i = .lda p ∧ mode = .direct) ∨ (i = .ldaI p ∧ mode = .indirect)) :
    (∀ v, operandValue mode p s = .ok v → ∃ t, exec i s = .next t ∧ exec i { s with ac := x } = .next t) ∧
    (∀ e, operandValue mode p s = .error e →
      ∃ t, exec i s = .next t ∧ exec i { s with ac := x } = .next { t with ac := x }) := by
  have hx (u : State) : exec i u = valueOp (fun _ v => v) mode p u := by
    obtain ⟨rfl, rfl⟩ | ⟨rfl, rfl⟩ := hi <;> rfl
  have hv : operandValue mode p { s with ac := x } = operandValue mode p s := operandValue_congr mode p rfl
  exact ⟨fun v h => by simp [hx, valueOp, hv, h], fun e h => by simp [hx, valueOp, hv, h, raise, takeOutOfRange]⟩

/-- Settles O19: the change of AC goes through every operation that does not read it, CLA and LDA overwrite it. -/
theorem acReaders : Obligations.AcReaders := fun s p op x =>
  ⟨fun i hi => exec_commutes_ac (fun _ => x) p op i hi s, ⟨_, rfl, rfl⟩, fun _ _ hi => exec_lda_setAc s x hi⟩

/-! ### The fetch past memory, and reset -/

/-- Settles O9: the fetch raises at PC, and the cycle ends there. -/
theorem fetchPastMemoryFaults : Obligations.FetchPastMemoryFaults := by
  intro s hs hpc
  have hf : fetch s = .error (takeOutOfRange { addr := s.pc, kind := .fetch } s) := by
    simp [fetch, memRead_invalid _ s hpc]
  rw [step_of_running hs, hf]
  rfl

/-- The registers of a reset core meet the invariant over every canonical memory (R33). -/
theorem inv_of_reset {m : Memory} (h : m.wf = true) : State.Inv { State.reset with mem := m } where
  mem_wf := h
  pc_le := by simp
  fault_iff := by simp
  fault_fits := by simp
  halted_ir := by simp

/-- Settles O22: the empty memory and a loaded image are canonical. -/
theorem resetAndBootMeetInv : Obligations.ResetAndBootMeetInv :=
  ⟨inv_of_reset (m := []) rfl, fun _ h => inv_of_reset (Memory.wf_ofWords h)⟩

/-- The words put from address `a` on are read back there. -/
theorem Memory.read_ofWords (ws : List Word) (a i : Nat) (hlen : a + ws.length ≤ 64) (hi : i < ws.length) :
    (Memory.ofWords a ws).read (a + i) = ws[i] := by
  induction ws generalizing a i with
  | nil => simp at hi
  | cons w ws ih =>
    simp only [List.length_cons] at hlen hi
    have hlen' : a + 1 + ws.length ≤ 64 := by omega
    cases i with
    | zero =>
      have hrest : (Memory.ofWords (a + 1) ws).read a = unlistedWord :=
        Memory.read_of_wfFrom (Memory.wfFrom_ofWords ws (a + 1) hlen') (Nat.lt_succ_self a)
      by_cases hw : w = unlistedWord <;> simp [Memory.ofWords, hw, hrest, Memory.read_cons]
    | succ i =>
      have hrest := ih (a + 1) i hlen' (by omega)
      rw [Nat.add_assoc, Nat.add_comm 1 i] at hrest
      by_cases hw : w = unlistedWord <;> simp [Memory.ofWords, hw, hrest, Memory.read_cons]

theorem hostReset_of_not_running {s : State} (h : s.status ≠ .running) :
    hostReset s = some { State.reset with mem := s.mem } := if_pos h

/-- Settles O24: reset keeps memory, and a booted core reads its image. -/
theorem resetValues : Obligations.ResetValues := by
  refine ⟨fun s hs => ⟨_, hostReset_of_not_running hs, rfl, rfl, rfl, rfl, rfl, rfl⟩, ⟨rfl, rfl, rfl, rfl, rfl⟩,
    fun image i hi hlen => ?_⟩
  have hread := Memory.read_ofWords image 0 i (by omega) hi
  rwa [Nat.zero_add] at hread

end Sys2Proof.Machine

end

/-! PROOFS, memory (spec/20_memory.md): what a step leaves of memory said once (`step_mem_cases`), canonical
memories as data, the words an assembler places, and what the host loads and reads back. -/

section

namespace Sys2Proof.Machine

/-! ### The range-checked access -/

/-- Settles O30, by the two outcomes of each access. -/
theorem memoryAccessRules : Obligations.MemoryAccessRules := by
  refine fun a kind v s => ⟨fun hlt => ⟨memRead_valid kind s hlt, ?_⟩,
    fun hge => ⟨memRead_invalid kind s hge, memWrite_invalid v s hge⟩⟩
  exact ⟨_, memWrite_valid v s hlt, ⟨by simp, fun b hb => by simp [hb]⟩, ⟨rfl, rfl, rfl⟩, rfl, rfl⟩

/-! ### A step always answers, and reports the first access out of range -/

/-- Every cycle has a next state: an exception is one too, and no arm of `exec` stops (log entries 3 and 4). -/
theorem exists_step (s : State) : ∃ t, step s = .next t := by
  by_cases hs : s.status = .running
  · rw [step_of_running hs]
    rcases fetch s with t | ⟨i, t⟩
    · exact ⟨t, rfl⟩
    · obtain ⟨u, hu, -⟩ := exec_commutes_ir id i t
      exact ⟨u, hu⟩
  · exact ⟨s, step_of_not_running hs⟩

/-- Settles O11: a cycle that raises has the record of its first access out of range, and one that completes
has no such access. -/
theorem firstBadAccessIsReported : Obligations.FirstBadAccessIsReported := by
  intro s hs
  obtain ⟨t, ht⟩ := exists_step s
  obtain ⟨e, hr, rfl⟩ | hc := raises_or_completes hs ht
  · refine ⟨fun addr kind hbad => ?_, fun hnone => ?_⟩
    · obtain ⟨rfl, rfl⟩ : e.addr = addr ∧ e.kind = kind := by simpa [hr.firstBadAccess_eq] using hbad
      exact ⟨_, ht, rfl, rfl⟩
    · simp [hr.firstBadAccess_eq] at hnone
  · refine ⟨fun addr kind hbad => ?_, fun _ => ⟨t, ht, hc.not_faulted hs, hc.fault_eq⟩⟩
    simp [hc.firstBadAccess_eq] at hbad

/-! ### What a step leaves of memory -/

/-- STA and ISZ, direct and indirect: the opcodes that write memory (R58). -/
abbrev writingCodes : List Word := [0x08#8, 0x88#8, 0x20#8, 0xA0#8]

/-- The operand form of an opcode that writes memory is the one its bit 7 says. -/
theorem WritesThrough.opcodeMode_eq {op : Word} {mode : AddrMode} (h : WritesThrough op mode) :
    opcodeMode op = mode := by
  obtain ⟨rfl, hop⟩ | ⟨rfl, hop⟩ := h <;> simp only [List.mem_cons, List.not_mem_nil, or_false] at hop <;>
    rcases hop with rfl | rfl <;> rfl

/-- The cycle of `s` fetched an opcode that writes, and memory `m` is that of `s` with one word written at the
effective address, which exists. -/
def WritesAtEA (s : State) (m : Memory) : Prop :=
  s.mem.read s.pc ∈ writingCodes ∧ ∃ (ea v : Word),
    effectiveAddress (opcodeMode (s.mem.read s.pc)) s.field s = .ok ea ∧ ea.toNat < 64 ∧
    m = s.mem.write ea.toNat v

/-- A completed cycle leaves memory alone, or is STA's or ISZ's and writes at its effective address (R44, R58). -/
theorem Completes.mem_cases {s t : State} (h : Completes s t) : t.mem = s.mem ∨ WritesAtEA s t.mem := by
  cases h with
  | store _ hop hea hlt =>
    exact .inr ⟨(by decide : [0x08#8, 0x88#8] ⊆ writingCodes) hop, _, _, hea, hlt, rfl⟩
  | incrementSkip _ hop hea hlt =>
    exact .inr ⟨(by decide : [0x20#8, 0xA0#8] ⊆ writingCodes) hop, _, _, hea, hlt, rfl⟩
  | _ => exact .inl rfl

/-- What a step can make of memory: nothing, or one write by a Running core whose cycle did not raise. -/
theorem step_mem_cases {s t : State} (h : step s = .next t) :
    t.mem = s.mem ∨ (s.status = .running ∧ t.status ≠ .faulted ∧ WritesAtEA s t.mem) := by
  by_cases hs : s.status = .running
  · obtain ⟨e, -, rfl⟩ | hc := raises_or_completes hs h
    · exact .inl rfl
    · exact hc.mem_cases.imp_right fun hw => ⟨hs, hc.not_faulted hs, hw⟩
  · obtain rfl : s = t := by simpa [step_of_not_running hs] using h
    exact .inl rfl

/-- Settles O16: a step that writes neither raises nor has another opcode. -/
theorem onlyStaAndIszWriteMemory : Obligations.OnlyStaAndIszWriteMemory := by
  intro s t _ h hkeep a
  obtain hmem | ⟨-, hnf, hop, -⟩ := step_mem_cases h
  · rw [hmem]
  · exact absurd hkeep (by simp only [not_or, not_not]; exact ⟨hnf, hop⟩)

/-- Settles O17: the one word a step writes is at the effective address the state before gives. -/
theorem oneCycleWritesOneWord : Obligations.OneCycleWritesOneWord := by
  intro s t h
  obtain hmem | ⟨hs, -, hop, ea', v, hea', hlt, hmem⟩ := step_mem_cases h <;> rw [hmem]
  · simp
  · refine ⟨fun mode ea hw hea a ha => ?here, fun hno => ?noWrite, fun mode e hw he => ?noAddress⟩
    case here =>
      obtain rfl : ea' = ea := by simpa [← hw.opcodeMode_eq, hea'] using hea
      have hne : a ≠ ea'.toNat := by omega
      simp [hne]
    case noWrite => exact absurd hno (by simp only [not_or, not_not]; exact ⟨hs, hop⟩)
    case noAddress => simp [← hw.opcodeMode_eq, hea'] at he

/-! ### A store into the next instruction -/

/-- The whole cycle of STA at an effective address that exists (R110). -/
theorem step_store {s : State} {op ea : Word} {mode : AddrMode} (h : s.Fetches op)
    (hop : op = 0x08#8 ∧ mode = .direct ∨ op = 0x88#8 ∧ mode = .indirect) (hpc : s.pc < 63)
    (hea : effectiveAddress mode s.field s = .ok ea) (hlt : ea.toNat < 64) :
    step s = .next { s with ir := op, mem := s.mem.write ea.toNat s.ac, pc := s.pc + 2 } := by
  have hexec : step s = storeOp mode s.field { s with ir := op } := by
    obtain ⟨rfl, rfl⟩ | ⟨rfl, rfl⟩ := hop
    · exact step_twoWord (o := .sta) (indirect := false) h rfl hpc
    · exact step_twoWord (o := .sta) (indirect := true) h rfl hpc
  have hea' : effectiveAddress mode s.field { s with ir := op } = .ok ea := hea
  rw [hexec, storeOp_at hea', if_pos hlt]

/-- The step of a core that fetches `op` leaves `op` in IR (R27). -/
theorem exists_step_ir_eq {s : State} {op : Word} (h : s.Fetches op) : ∃ t, step s = .next t ∧ t.ir = op := by
  obtain ⟨hs, hpc, hop⟩ := h
  obtain ⟨t, ht⟩ := exists_step s
  exact ⟨t, ht, ((ir_of_step hs ht).1 hpc).trans hop⟩

/-- Settles O54: after the store PC is at the word written, and the next step fetches it. -/
theorem storeIsSeenByNextFetch : Obligations.StoreIsSeenByNextFetch := by
  intro s op ea hs hop hnext hpc
  have hstep : step s = .next { s with ir := op, mem := s.mem.write ea.toNat s.ac, pc := s.pc + 2 } := by
    obtain ⟨hop, hea⟩ | ⟨hop, hea⟩ := hop
    · exact step_store hs (.inl ⟨hop, rfl⟩) (by omega) hea (by omega)
    · exact step_store hs (.inr ⟨hop, rfl⟩) (by omega) hea (by omega)
  have hread : (s.mem.write ea.toNat s.ac).read (s.pc + 2) = s.ac := by simp [hnext]
  exact ⟨_, hstep, hs.1, rfl, hread, exists_step_ir_eq ⟨hs.1, Nat.add_lt_add_right hpc 2, hread⟩⟩

/-! ### Canonical memories as data -/

theorem Memory.wfFrom_cons {lo : Nat} {c : Host.Cell} {m : Memory} :
    Memory.wfFrom lo (c :: m) = true ↔
      lo ≤ c.1 ∧ c.1 < 64 ∧ c.2 ≠ unlistedWord ∧ Memory.wfFrom (c.1 + 1) m = true := by
  simp [Memory.wfFrom, validAddress, and_assoc]

/-- In canonical form no word before the first cell's address is listed. -/
theorem Memory.head_le_of_read_ne {lo a : Nat} {c : Host.Cell} {m : Memory}
    (h : Memory.wfFrom lo (c :: m) = true) (hr : Memory.read (c :: m) a ≠ unlistedWord) : c.1 ≤ a := by
  obtain ⟨-, hlt, hne, hm⟩ := Memory.wfFrom_cons.mp h
  by_contra hn
  exact hr (Memory.read_of_wfFrom (Memory.wfFrom_cons.mpr ⟨le_rfl, hlt, hne, hm⟩) (Nat.lt_of_not_le hn))

theorem Memory.read_head (c : Host.Cell) (m : Memory) : Memory.read (c :: m) c.1 = c.2 := if_pos rfl

/-- Canonical memories that read the same everywhere have the same cells: the first cells are at each other's
address, and the rest reads the same. -/
theorem Memory.eq_of_read_eq {lo lo' : Nat} {m n : Memory} (hm : m.wfFrom lo = true) (hn : n.wfFrom lo' = true)
    (h : ∀ a, m.read a = n.read a) : m = n := by
  induction m generalizing lo lo' n with
  | nil =>
    cases n with
    | nil => rfl
    | cons d n => exact absurd ((h d.1).trans (Memory.read_head d n)).symm (Memory.wfFrom_cons.mp hn).2.2.1
  | cons c m ih =>
    obtain ⟨-, -, hc, hm'⟩ := Memory.wfFrom_cons.mp hm
    cases n with
    | nil => exact absurd ((Memory.read_head c m).symm.trans (h c.1)) hc
    | cons d n =>
      obtain ⟨-, -, hd, hn'⟩ := Memory.wfFrom_cons.mp hn
      have hread : Memory.read (d :: n) c.1 = c.2 := (h c.1).symm.trans (Memory.read_head c m)
      have haddr : c.1 = d.1 := by
        refine Nat.le_antisymm (Memory.head_le_of_read_ne hm ?_) (Memory.head_le_of_read_ne hn (hread ▸ hc))
        rwa [h d.1, Memory.read_head]
      have hcell : c = d := Prod.ext haddr (by rw [← hread, haddr, Memory.read_head])
      subst hcell
      refine congrArg (c :: ·) (ih hm' hn' fun a => ?_)
      by_cases ha : c.1 = a
      · rw [Memory.read_of_wfFrom hm' (by omega), Memory.read_of_wfFrom hn' (by omega)]
      · simpa [Memory.read_cons, ha] using h a

/-- Settles O31: past 63 a canonical memory reads as unlisted, so the two read the same everywhere. -/
theorem canonicalMemoriesAreEqualData : Obligations.CanonicalMemoriesAreEqualData := by
  refine fun m n hm hn h => Memory.eq_of_read_eq hm hn fun a => ?_
  obtain hlt | hge := Nat.lt_or_ge a 64
  · exact h a hlt
  · rw [Memory.read_past_end hm hge, Memory.read_past_end hn hge]

/-! ### The words an assembler places -/

/-- The decoder undoes the encoder, whatever words follow. -/
theorem decode_encode_append {i : Instr} (h : i.wf = true) (rest : List Word) :
    decode (encode i ++ rest) = .ok (i, rest) := by
  cases i with
  | undef op =>
    have hop : op ∉ definedCodes := by simpa [Instr.wf] using h
    simp [encode, decode, decodeOpcode_undef op hop]
  | _ => rfl

/-- An encoding is an opcode word, with the address field after it where there is one (R64). -/
theorem encode_shape (i : Instr) : (∃ op, encode i = [op]) ∨ ∃ op p, encode i = [op, p] := by
  cases i with
  | cla | cma | hlt | asl | asr | inc | undef => exact .inl ⟨_, rfl⟩
  | _ => exact .inr ⟨_, _, rfl⟩

theorem placeWords_cons {a : Nat} (w : Word) (ws : List Word) (m : Memory) (h : a < 64) :
    placeWords a (w :: ws) m = placeWords (a + 1) ws (m.write a w) := by
  simp [placeWords, validAddress, h]

/-- An item alone on its line is placed at the line's address. -/
theorem assembleFrom_single (a : Nat) (item : AsmItem) (m : Memory) :
    assembleFrom 0 [{ addr := some a, item := item }] m = placeWords a item.words m := by
  cases h : placeWords a item.words m <;> simp [assembleFrom, h]

theorem wordsAt_of_lt {m : Memory} {a : Nat} (h : a < 63) : wordsAt m a = [m.read a, m.read (a + 1)] := by
  have h0 : a < 64 := by omega
  have h1 : a + 1 < 64 := by omega
  simp [wordsAt, List.range_succ, validAddress, h0, h1]

theorem wordsAt_63 (m : Memory) : wordsAt m 63 = [m.read 63] := rfl

/-- The encoding of an instruction fits where it ends before 64, and is then found at its address. -/
theorem exists_placeWords_encode {i : Instr} {a : Nat} (m : Memory) (h : a + (encode i).length ≤ 64) :
    ∃ m' rest, placeWords a (encode i) m = some m' ∧ wordsAt m' a = encode i ++ rest := by
  obtain ⟨op, he⟩ | ⟨op, p, he⟩ := encode_shape i <;>
    simp only [he, List.length_cons, List.length_nil] at h ⊢
  · refine ⟨m.write a op, ?_⟩
    obtain rfl | hlt : a = 63 ∨ a < 63 := by omega
    · exact ⟨[], placeWords_cons op [] m (by decide), by simp [wordsAt_63]⟩
    · exact ⟨[m.read (a + 1)], placeWords_cons op [] m (by omega), by simp [wordsAt_of_lt hlt]⟩
  · refine ⟨(m.write a op).write (a + 1) p, [], ?_, by simp [wordsAt_of_lt (show a < 63 by omega)]⟩
    rw [placeWords_cons op [p] m (by omega), placeWords_cons p [] _ (by omega)]
    rfl

/-- Settles O29: the encoding is found at its address, and the decoder undoes it. -/
theorem assembledInstructionDecodes : Obligations.AssembledInstructionDecodes := by
  intro i a hwf hfit
  obtain ⟨m, rest, hplace, hwords⟩ := exists_placeWords_encode [] hfit
  exact ⟨m, rest, (assembleFrom_single a (.instr i) []).trans hplace, hwords ▸ decode_encode_append hwf rest⟩

/-! ### What the host loads, resets and reads -/

/-- A load is taken from a core that is not Running, of 64 words, and replaces memory only (R56). -/
theorem hostLoad_eq_some {image : List Word} {s t : State} :
    hostLoad image s = some t ↔
      s.status ≠ .running ∧ image.length = 64 ∧ t = { s with mem := Memory.ofWords 0 image } := by
  simp [hostLoad, and_assoc, eq_comm]

/-- A reset is taken from a core that is not Running, and keeps memory only (R151). -/
theorem hostReset_eq_some {s t : State} :
    hostReset s = some t ↔ s.status ≠ .running ∧ t = { State.reset with mem := s.mem } := by
  simp [hostReset, eq_comm]

theorem hostRead_of_not_running {s : State} {a : Nat} (h : s.status ≠ .running) (ha : a < 64) :
    hostRead a s = some (s.mem.read a) := if_pos ⟨h, by simp [validAddress, ha]⟩

theorem hostReadback_of_not_running {s : State} (h : s.status ≠ .running) :
    hostReadback s = some s.mem.toWords := if_pos h

/-- Settles O23: a reset is a reset over a canonical memory, and a load leaves everything but memory. -/
theorem hostKeepsInv : Obligations.HostKeepsInv := by
  rintro s t hinv (hreset | ⟨image, hload⟩)
  · obtain ⟨-, rfl⟩ := hostReset_eq_some.mp hreset
    exact inv_of_reset hinv.mem_wf
  · obtain ⟨-, hlen, rfl⟩ := hostLoad_eq_some.mp hload
    exact { hinv with mem_wf := Memory.wf_ofWords hlen }

@[simp] theorem Memory.length_toWords (m : Memory) : m.toWords.length = 64 := by simp [Memory.toWords]

theorem Memory.getElem?_toWords (m : Memory) {a : Nat} (h : a < 64) : m.toWords[a]? = some (m.read a) := by
  simp [Memory.toWords, h]

/-- Address i of a loaded image holds its word i (R56). -/
theorem Memory.read_ofWords_image {image : List Word} (hlen : image.length = 64) {a : Nat} (ha : a < 64) :
    some ((Memory.ofWords 0 image).read a) = image[a]? := by
  have hi : a < image.length := by omega
  have hread := Memory.read_ofWords image 0 a (by omega) hi
  rw [Nat.zero_add] at hread
  rw [hread, List.getElem?_eq_getElem hi]

theorem Memory.toWords_ofWords {image : List Word} (hlen : image.length = 64) :
    (Memory.ofWords 0 image).toWords = image := by
  refine List.ext_getElem? fun a => ?_
  obtain hlt | hge := Nat.lt_or_ge a 64
  · rw [Memory.getElem?_toWords _ hlt, Memory.read_ofWords_image hlen hlt]
  · rw [List.getElem?_eq_none (by simpa using hge), List.getElem?_eq_none (by omega)]

/-- Settles O26: memory is the image loaded, word by word. -/
theorem readbackOfLoad : Obligations.ReadbackOfLoad := by
  intro s t image hload
  obtain ⟨hs, hlen, ht⟩ := hostLoad_eq_some.mp hload
  have hmem : t.mem = Memory.ofWords 0 image := by rw [ht]
  have hts : t.status ≠ .running := by rwa [ht]
  refine ⟨?_, fun a ha => ?_⟩
  · rw [hostReadback_of_not_running hts, hmem, Memory.toWords_ofWords hlen]
  · rw [hostRead_of_not_running hts ha, hmem, Memory.read_ofWords_image hlen ha]

/-- Settles O27: each action of the host asks that the core is not Running, a load for 64 words, a read for an
address that exists. -/
theorem hostIsShutOutWhileRunning : Obligations.HostIsShutOutWhileRunning := by
  refine ⟨fun s image a hs => ?running, fun s image hlen => ?length, fun s a ha => ?address⟩
  case running =>
    have hno : ¬ HostMayAct s := not_not.mpr hs
    exact ⟨if_neg fun h => hno h.1, if_neg hno, if_neg fun h => hno h.1, if_neg hno, if_neg hno⟩
  case length => exact if_neg fun h => hlen h.2
  case address => exact if_neg fun h => by simp [validAddress, Nat.not_lt.mpr ha] at h

/-- Settles O58, by the host's reads of a core that is not Running and the three run states. -/
theorem hostReadsTheEndOfARun : Obligations.HostReadsTheEndOfARun := by
  refine fun s => ⟨fun hs => ⟨if_pos hs, if_pos hs, fun a ha => hostRead_of_not_running hs ha, ?readback⟩,
    fun hs => if_neg (not_not.mpr hs), ?result⟩
  case readback =>
    exact ⟨_, hostReadback_of_not_running hs, s.mem.length_toWords, fun a ha => s.mem.getElem?_toWords ha⟩
  case result => cases hst : s.status <;> simp [runResult, hst]

/-! ### The rows of an image -/

/-- In rows of one length `n`, column c of row r is at index r*n + c. -/
theorem getElem?_flatten_of_length_eq {α : Type} {n r c : Nat} {rows : List (List α)} {row : List α}
    (hlen : ∀ l ∈ rows, l.length = n) (hr : rows[r]? = some row) (hc : c < n) :
    rows.flatten[r * n + c]? = row[c]? := by
  induction rows generalizing r with
  | nil => simp at hr
  | cons l rows ih =>
    obtain ⟨hl, hrows⟩ := List.forall_mem_cons.mp hlen
    cases r with
    | zero =>
      obtain rfl : l = row := by simpa using hr
      rw [List.flatten_cons, List.getElem?_append_left (by omega), Nat.zero_mul, Nat.zero_add]
    | succ r =>
      have hidx : (r + 1) * n + c = l.length + (r * n + c) := by rw [hl]; ring
      rw [List.flatten_cons, hidx, List.getElem?_append_right (Nat.le_add_right _ _), Nat.add_sub_cancel_left]
      exact ih hrows (by simpa using hr)

/-- Settles O28, by the index of a word in rows of 8. -/
theorem imageRowsGiveAddresses : Obligations.ImageRowsGiveAddresses := by
  intro rows image himage
  obtain ⟨⟨hrows, hlen⟩, rfl⟩ : (rows.length = 8 ∧ ∀ r ∈ rows, r.length = 8) ∧ rows.flatten = image := by
    simpa [imageOfRows] using himage
  refine ⟨?_, fun r c row hr hc => getElem?_flatten_of_length_eq hlen hr hc⟩
  rw [List.length_flatten, List.map_congr_left hlen, List.map_const', List.sum_const_nat, hrows]

end Sys2Proof.Machine

end

/-! PROOFS, encoding (spec/30_encoding.md): the decoder's answer from what the opcode word says, that decoding
and encoding undo each other, and the undefined opcodes as one-word no-ops. -/

section

namespace Sys2Proof.Machine

/-! ### The decoder, from what the opcode word says -/

/-- The decoder takes one word where the opcode is a whole instruction (R62). -/
theorem decode_of_oneWord {op : Word} {i : Instr} (h : decodeOpcode op = .oneWord i) (rest : List Word) :
    decode (op :: rest) = .ok (i, rest) := by
  simp [decode, h]

/-- The decoder takes the word after the opcode as the address field (R63). -/
theorem decode_of_operand {op : Word} {o : OperandOp} {ind : Bool} (h : decodeOpcode op = .operand o ind)
    (p : Word) (rest : List Word) : decode (op :: p :: rest) = .ok (operandInstr o ind p, rest) := by
  simp [decode, h]

theorem decode_of_operand_alone {op : Word} {o : OperandOp} {ind : Bool} (h : decodeOpcode op = .operand o ind) :
    decode [op] = .error (.noAddressField op) := by
  simp [decode, h]

theorem decode_of_undefined {op : Word} (h : op ∉ definedCodes) (rest : List Word) :
    decode (op :: rest) = .ok (.undef op, rest) :=
  decode_of_oneWord (decodeOpcode_undef op h) rest

theorem instrLength_of_mem {op : Word} (h : op ∈ operandCodes) : instrLength op = 2 := if_pos h

theorem instrLength_of_notMem {op : Word} (h : op ∉ operandCodes) : instrLength op = 1 := if_neg h

/-! ### Decoding and encoding undo each other -/

/-- Settles O1, by the opcode word of each constructor; of an undefined opcode it is the code itself. -/
theorem decodeOfEncode : Obligations.DecodeOfEncode := fun _ rest h => decode_encode_append h rest

/-- Settles O2: the opcode word is the whole encoding, or the first word of it and the address field the
second. -/
theorem encodeOfDecode : Obligations.EncodeOfDecode := by
  intro ws rest i h
  cases ws with
  | nil => simp [decode] at h
  | cons op ws =>
    obtain ⟨-, o, ind, hd, he⟩ | ⟨-, j, hd, he, hwf⟩ := decodeOpcode_cases op
    case inl =>
      cases ws with
      | nil => simp [decode_of_operand_alone hd] at h
      | cons p ws =>
        obtain ⟨rfl, rfl⟩ : operandInstr o ind p = i ∧ ws = rest := by simpa [decode_of_operand hd] using h
        obtain ⟨he, hwf⟩ := he p
        exact ⟨hwf, by simp [he]⟩
    case inr =>
      obtain ⟨rfl, rfl⟩ : j = i ∧ ws = rest := by simpa [decode_of_oneWord hd] using h
      exact ⟨hwf, by simp [he]⟩

/-- Settles O3: the operand codes are the words that decode as an operation with an address field. -/
theorem lengthFromOpcodeAlone : Obligations.LengthFromOpcodeAlone := by
  intro op p rest
  obtain ⟨hop, o, ind, hd, -⟩ | ⟨hop, i, hd, -⟩ := decodeOpcode_cases op
  · exact ⟨fun _ => ⟨instrLength_of_mem hop, decode_of_operand_alone hd, _, decode_of_operand hd p rest⟩,
      fun hno => absurd hop hno⟩
  · exact ⟨fun hyes => absurd hyes hop, fun _ => ⟨instrLength_of_notMem hop, i, decode_of_oneWord hd rest⟩⟩

/-- Words numbered as the opcode table numbers them decode to the instruction whose encoding they begin with. -/
theorem decodeTableWord_of_encode {nbits w : Nat} {i : Instr} (rest : List Word) (hwf : i.wf = true)
    (h : [tableWord 0 nbits w, tableWord 1 nbits w] = encode i ++ rest) : decodeTableWord nbits w = some i := by
  simp [decodeTableWord, h, decode_encode_append hwf]

/-- Settles O5: the words are the encodings, with a word 0x00 after those of one word. -/
theorem specWordsDecode : Obligations.SpecWordsDecode :=
  ⟨decodeTableWord_of_encode [] rfl rfl, decodeTableWord_of_encode [] rfl rfl,
    decodeTableWord_of_encode [0x00#8] rfl rfl, decodeTableWord_of_encode [0x00#8] rfl rfl,
    decodeTableWord_of_encode [0x00#8] rfl rfl, decodeTableWord_of_encode [0x00#8] rfl rfl⟩

/-! ### The undefined opcodes -/

/-- The cycle of an undefined opcode writes IR and advances PC by 1, and changes nothing else (R126). -/
theorem step_of_undefined {s : State} {op : Word} (hop : op ∉ definedCodes) (h : s.Fetches op) :
    step s = .next { s with ir := op, pc := s.pc + 1 } :=
  step_oneWord h (decodeOpcode_undef op hop)

/-- Of the 256 word values, as many are in a list of distinct words as the list has. -/
theorem length_filter_contains {codes : List Word} (h : codes.Nodup) :
    ((List.range 256).filter (fun n => codes.contains (BitVec.ofNat 8 n))).length = codes.length := by
  have hperm : List.Perm ((List.range 256).filter (fun n => codes.contains (BitVec.ofNat 8 n)))
      (codes.map BitVec.toNat) := by
    refine (List.perm_ext_iff_of_nodup (List.nodup_range.filter _)
      (h.map BitVec.toNat_injective)).mpr fun n => ?_
    simp only [List.mem_filter, List.mem_range, List.contains_iff_mem, List.mem_map]
    constructor
    · rintro ⟨hlt, hn⟩
      exact ⟨_, hn, (BitVec.toNat_ofNat n 8).trans (Nat.mod_eq_of_lt hlt)⟩
    · rintro ⟨w, hw, rfl⟩
      exact ⟨w.isLt, by simpa using hw⟩
  rw [hperm.length_eq, List.length_map]

/-- The 20 codes of R67 leave 236 of the 256 word values. -/
theorem length_filter_undefined :
    ((List.range 256).filter (fun n => !definedCodes.contains (BitVec.ofNat 8 n))).length = 236 := by
  have hdefined : ((List.range 256).filter (fun n => definedCodes.contains (BitVec.ofNat 8 n))).length = 20 :=
    length_filter_contains (by decide)
  have hsplit := List.length_eq_length_filter_add (l := List.range 256)
    (fun n => definedCodes.contains (BitVec.ofNat 8 n))
  rw [List.length_range, hdefined] at hsplit
  omega

/-- Settles O6: the listed ranges are what the 20 codes leave of 0x00 to 0xFF, and each word in them has the
cycle of an undefined opcode. -/
theorem undefinedOpcodesAreNoOps : Obligations.UndefinedOpcodesAreNoOps := by
  refine ⟨fun op => ?ranges, length_filter_undefined, fun s op => step_of_undefined⟩
  case ranges =>
    have hlt : op.toNat < 256 := op.isLt
    simp only [definedCodes, operandCodes, List.cons_append, List.nil_append, List.mem_cons, List.not_mem_nil,
      or_false, not_or, ← BitVec.toNat_inj, BitVec.toNat_ofNat]
    omega

/-- Settles O7: the three codes are none of the 20 defined ones. -/
theorem noIndirectFormOfOneWordCodes : Obligations.NoIndirectFormOfOneWordCodes := by
  intro op hop
  have hundef : op ∉ definedCodes := by
    simp only [List.mem_cons, List.not_mem_nil, or_false] at hop
    rcases hop with rfl | rfl | rfl <;> decide
  exact ⟨decode_of_undefined hundef, fun s => step_of_undefined hundef⟩

end Sys2Proof.Machine

end

/-! PROOFS, the cycle (spec/40_cycle.md): the Arithmetic Unit as modular arithmetic, the fetch held against the
decoder, and runs of the machine as iterated steps. -/

section

namespace Sys2Proof.Machine

/-! ### The Arithmetic Unit -/

/-- Normalisation is reduction modulo 256 (R81). -/
theorem toNat_toWord (x : Int) : ((toWord x).toNat : Int) = x % 256 := by
  rw [toWord_eq_ofInt, BitVec.toNat_ofInt]
  omega

/-- Normalising the signed reading of a word gives the word back (R80). -/
@[simp] theorem toWord_toSigned (w : Word) : toWord (toSigned w) = w := by
  rw [toWord_eq_ofInt, toSigned_eq_toInt, BitVec.ofInt_toInt]

theorem toSigned_emod (w : Word) : toSigned w % 256 = (w.toNat : Int) := by
  rw [← toNat_toWord, toWord_toSigned]

/-- The signed reading by the unsigned one: bit 7 is 1 from 128 on (R80). -/
theorem toSigned_eq_ite (w : Word) :
    toSigned w = if 128 ≤ w.toNat then -(256 - (w.toNat : Int)) else (w.toNat : Int) := by
  rw [toSigned_eq_toInt, BitVec.toInt_eq_toNat_cond]
  split <;> split <;> omega

/-- Settles O32, by the unsigned reading of the word, which is below 256. -/
theorem toSignedRoundTrips : Obligations.ToSignedRoundTrips := by
  intro w
  have hlt : w.toNat < 256 := w.isLt
  have hcond := toSigned_eq_ite w
  refine ⟨hcond, ?lower, ?upper, toSigned_emod w, toWord_toSigned w⟩ <;> split at hcond <;> omega

/-- Settles O33: both operations normalise, and the signed and unsigned readings agree modulo 256. -/
theorem addSubAreModular : Obligations.AddSubAreModular := by
  intro a b
  refine ⟨toNat_toWord _, ?addPatterns, toNat_toWord _, ?subPatterns⟩
  case addPatterns => rw [add8_eq_add, BitVec.toNat_add]
  case subPatterns =>
    calc ((sub8 a b).toNat : Int) = (toSigned a - toSigned b) % 256 := toNat_toWord _
      _ = (toSigned a % 256 - toSigned b % 256) % 256 := Int.sub_emod ..
      _ = ((a.toNat : Int) - (b.toNat : Int)) % 256 := by rw [toSigned_emod, toSigned_emod]

/-- The complement of R85 is the library's complement of 8 bits. -/
theorem not8_eq_not (a : Word) : not8 a = ~~~a := BitVec.xor_allOnes

/-- Settles O34, by the library's bits and value of a conjunction and of a complement. -/
theorem logicIsBitwise : Obligations.LogicIsBitwise := by
  refine fun a b => ⟨fun i _ => BitVec.getLsbD_and, rfl, ?value, fun i hi => ?bit⟩
  case value => rw [not8_eq_not, BitVec.toNat_not]
  case bit => simp [not8_eq_not, hi]

/-! ### The operand forms -/

/-- The operand value is the read at the effective address (R88). -/
theorem operandValue_at {mode : AddrMode} {p ea : Word} {s : State} (h : effectiveAddress mode p s = .ok ea) :
    operandValue mode p s = memRead ea.toNat .dataRead s := by
  simp [operandValue, h]

theorem operandValue_error {mode : AddrMode} {p : Word} {s : State} {e : FaultRecord}
    (h : effectiveAddress mode p s = .error e) : operandValue mode p s = .error e := by
  simp [operandValue, h]

/-- Settles O35: the pointer exists or is the exception, and the operand value is a read of its own. -/
theorem operandForms : Obligations.OperandForms := by
  refine fun p s => ⟨rfl, effectiveAddress_indirect_valid s, fun hge => ?badPointer, fun mode ea hea => ?value⟩
  case badPointer =>
    have he := effectiveAddress_indirect_invalid s hge
    exact ⟨he, operandValue_error he⟩
  case value =>
    rw [operandValue_at hea]
    exact ⟨memRead_valid .dataRead s, memRead_invalid .dataRead s⟩

/-! ### Decoding, and the fetch held against it -/

/-- Settles O4: each row by what its opcode word says, and the listed codes are the 20 defined ones. -/
theorem opcodeMap : Obligations.OpcodeMap := by
  refine ⟨fun p rest => ?twoWord, fun rest => ?oneWord, fun op rest hop => ?undefined⟩
  case twoWord => and_intros <;> exact (decode_of_operand rfl p rest).trans rfl
  case oneWord => and_intros <;> exact decode_of_oneWord rfl rest
  case undefined =>
    refine decode_of_undefined (fun hdef => hop ?_) rest
    exact (List.Perm.mem_iff (by decide)).mp hdef

theorem wordsAt_of_ge {m : Memory} {a : Nat} (h : 64 ≤ a) : wordsAt m a = [] := by
  simp [wordsAt, List.range_succ, validAddress, h, Nat.le_add_right_of_le h]

/-- Where an opcode word exists, it is the first of the words there. -/
theorem wordsAt_eq_cons {m : Memory} {a : Nat} (h : a < 64) : ∃ ws, wordsAt m a = m.read a :: ws := by
  obtain rfl | hlt : a = 63 ∨ a < 63 := by omega
  · exact ⟨[], wordsAt_63 m⟩
  · exact ⟨_, wordsAt_of_lt hlt⟩

/-- The fetch answers the instruction that the words at PC decode to (R92). -/
theorem fetch_of_decode {s : State} {i : Instr} {rest : List Word}
    (h : decode (wordsAt s.mem s.pc) = .ok (i, rest)) : fetch s = .ok (i, { s with ir := s.mem.read s.pc }) := by
  obtain ⟨hge, -⟩ | ⟨hpc, j, hd, hf⟩ | ⟨hpc, o, ind, hd, hf⟩ | ⟨h63, o, ind, hd, -⟩ := fetch_cases s
  · simp [wordsAt_of_ge hge, decode] at h
  · obtain ⟨ws, hws⟩ := wordsAt_eq_cons (m := s.mem) hpc
    obtain ⟨rfl, -⟩ : j = i ∧ ws = rest := by simpa [hws, decode_of_oneWord hd] using h
    exact hf
  · obtain ⟨rfl, -⟩ : operandInstr o ind (s.mem.read (s.pc + 1)) = i ∧ [] = rest := by
      simpa [wordsAt_of_lt hpc, decode_of_operand hd] using h
    exact hf
  · rw [h63] at hd h
    simp [wordsAt_63, decode_of_operand_alone hd] at h

/-- Settles O8: a Running core runs what its fetch answers. -/
theorem stepRunsDecodedInstruction : Obligations.StepRunsDecodedInstruction := by
  intro s i rest hs hdec
  rw [step_of_running hs, fetch_of_decode hdec]

/-- Settles O13, by the cycle of a core that is not Running. -/
theorem haltedAndFaultedAreTerminal : Obligations.HaltedAndFaultedAreTerminal := fun _ => step_of_not_running

/-! ### Runs -/

theorem run_succ_of_step {M : Host.Core} {k : Nat} {s t : M.State} (h : M.step s = .next t) :
    M.run (k + 1) s = M.run k t := by
  simp [Host.Core.run, h]

theorem reaches_zero (s : State) : Reaches 0 s s := rfl

theorem reaches_succ {k : Nat} {s t u : State} (hstep : step s = .next t) :
    Reaches (k + 1) s u ↔ Reaches k t u :=
  Eq.congr_left (run_succ_of_step (M := Sys2Proof.core) hstep)

/-- After `k` steps the core is in one state (R92: a step is a function). -/
theorem Reaches.unique {k : Nat} {s t u : State} (ht : Reaches k s t) (hu : Reaches k s u) : t = u :=
  Host.Outcome.next.inj (ht.symm.trans hu)

theorem Reaches.trans {j k : Nat} {s t u : State} (hst : Reaches j s t) (htu : Reaches k t u) :
    Reaches (j + k) s u := by
  induction j generalizing s with
  | zero =>
    obtain rfl := (reaches_zero s).unique hst
    rwa [Nat.zero_add]
  | succ j ih =>
    obtain ⟨s', hstep⟩ := exists_step s
    rw [Nat.succ_add, reaches_succ hstep]
    exact ih ((reaches_succ hstep).mp hst)

/-- No run stops: the machine answers a next state after every number of steps. -/
theorem exists_reaches (k : Nat) (s : State) : ∃ t, Reaches k s t := by
  induction k generalizing s with
  | zero => exact ⟨s, reaches_zero s⟩
  | succ k ih =>
    obtain ⟨s', hstep⟩ := exists_step s
    obtain ⟨t, ht⟩ := ih s'
    exact ⟨t, (reaches_succ hstep).mpr ht⟩

/-- A state that steps to itself is where every run from it stays. -/
theorem reaches_of_fixed {t : State} (h : step t = .next t) (k : Nat) : Reaches k t t := by
  induction k with
  | zero => exact reaches_zero t
  | succ k ih => exact (reaches_succ h).mpr ih

/-- A run that has ended goes no further, however many steps are counted (D10). -/
theorem Reaches.stays {k : Nat} {s t : State} (h : Reaches k s t) (ht : t.status ≠ .running) (j : Nat) :
    Reaches (k + j) s t :=
  h.trans (reaches_of_fixed (step_of_not_running ht) j)

/-- A run ends in one state only. -/
theorem Reaches.end_unique {j k : Nat} {s t u : State} (ht : Reaches j s t) (hu : Reaches k s u)
    (htEnd : t.status ≠ .running) (huEnd : u.status ≠ .running) : t = u := by
  have hu' := hu.stays huEnd j
  rw [Nat.add_comm] at hu'
  exact (ht.stays htEnd k).unique hu'

/-- A run that ends does not go on for ever. -/
theorem Reaches.not_runsForever {k : Nat} {s t : State} (h : Reaches k s t) (ht : t.status ≠ .running) :
    ¬ RunsForever s := by
  intro hforever
  obtain ⟨u, hu, hrun⟩ := hforever k
  obtain rfl := h.unique hu
  exact ht hrun

/-- A run that does not go on for ever ends. -/
theorem exists_end_of_not_runsForever {s : State} (h : ¬ RunsForever s) :
    ∃ k t, Reaches k s t ∧ t.status ≠ .running := by
  simp only [RunsForever, not_forall, not_exists, not_and] at h
  obtain ⟨k, hk⟩ := h
  obtain ⟨t, ht⟩ := exists_reaches k s
  exact ⟨k, t, ht, hk t ht⟩

/-- Settles O56: a run that does not go on for ever has an end, the end is one state, and the state has one
status. -/
theorem runHasExactlyOneResult : Obligations.RunHasExactlyOneResult := by
  refine fun s => ⟨?exhaustive, ?haltsOrFaults, ?haltsOrRuns, ?faultsOrRuns⟩
  case exhaustive =>
    by_cases hforever : RunsForever s
    · exact .inr (.inr hforever)
    · obtain ⟨k, t, ht, hend⟩ := exists_end_of_not_runsForever hforever
      cases hst : t.status with
      | running => exact absurd hst hend
      | halted => exact .inl ⟨k, t, ht, hst⟩
      | faulted => exact .inr (.inl ⟨k, t, ht, hst⟩)
  case haltsOrFaults =>
    rintro ⟨⟨j, t, ht, hhalt⟩, k, u, hu, hfault⟩
    obtain rfl := ht.end_unique hu (by simp [hhalt]) (by simp [hfault])
    simp [hhalt] at hfault
  case haltsOrRuns =>
    rintro ⟨⟨k, t, ht, hhalt⟩, hforever⟩
    exact ht.not_runsForever (by simp [hhalt]) hforever
  case faultsOrRuns =>
    rintro ⟨⟨k, t, ht, hfault⟩, hforever⟩
    exact ht.not_runsForever (by simp [hfault]) hforever

/-- A BUN whose address field is its own address writes IR and changes nothing else (R111). -/
theorem step_bun_to_self {s : State} (h : s.Fetches 0x10#8) (hpc : s.pc < 63) (hself : s.field.toNat = s.pc) :
    step s = .next { s with ir := 0x10#8 } := by
  rw [step_twoWord (o := .bun) (indirect := false) h rfl hpc, operandInstr, exec_bun, branchOp_at rfl, hself]

/-- Settles O55: the first step changes IR only, and the state it leads to steps to itself. -/
theorem branchToItselfRunsForever : Obligations.BranchToItselfRunsForever := by
  intro s hs hpc hself
  have hfirst : step s = .next { s with ir := 0x10#8 } := step_bun_to_self hs hpc hself
  have hloop : step { s with ir := 0x10#8 } = .next { s with ir := 0x10#8 } :=
    step_bun_to_self (s := { s with ir := 0x10#8 }) hs hpc hself
  have hreach (k : Nat) : Reaches (k + 1) s { s with ir := 0x10#8 } :=
    (reaches_succ hfirst).mpr (reaches_of_fixed hloop k)
  refine ⟨fun k => ?_, hreach⟩
  cases k with
  | zero => exact ⟨s, reaches_zero s, hs.1⟩
  | succ k => exact ⟨_, hreach k, hs.1⟩

end Sys2Proof.Machine

end

/-! PROOFS, the value-consuming instructions (spec/41_value_ops.md): the completed value operation, the cycle of
the four instructions built once from it, and their results on unsigned readings. -/

section

namespace Sys2Proof.Machine

/-! ### The results on bit vectors and on unsigned readings -/

/-- `sub` wraps as the subtraction of patterns does (R83). -/
theorem sub8_eq_sub (a b : Word) : sub8 a b = a - b := by
  apply BitVec.eq_of_toInt_eq
  rw [sub8, toWord_eq_ofInt, toSigned_eq_toInt, toSigned_eq_toInt, BitVec.toInt_ofInt, BitVec.toInt_sub]

/-- ADD's result by unsigned readings (R101). -/
theorem add8_eq_ofNat (a b : Word) : add8 a b = BitVec.ofNat 8 ((a.toNat + b.toNat) % 256) := by
  apply BitVec.eq_of_toNat_eq
  rw [add8_eq_add, BitVec.toNat_add, BitVec.toNat_ofNat, Nat.mod_mod]

/-- SUB's result by unsigned readings (R102). -/
theorem sub8_eq_ofInt (a b : Word) : sub8 a b = BitVec.ofInt 8 (((a.toNat : Int) - (b.toNat : Int)) % 256) := by
  obtain ⟨-, -, -, hsub⟩ := addSubAreModular a b
  rw [← hsub, BitVec.ofInt_natCast, BitVec.ofNat_toNat, BitVec.setWidth_eq]

/-! ### The cycle of a value-consuming instruction -/

/-- A value operation whose operand word exists completes: AC and PC change, nothing else. -/
theorem valueOp_valid {f : Word → Word → Word} {mode : AddrMode} {p ea : Word} {s : State}
    (hea : effectiveAddress mode p s = .ok ea) (hlt : ea.toNat < 64) :
    valueOp f mode p s = .next { s with ac := f s.ac (s.mem.read ea.toNat), pc := s.pc + 2 } :=
  (valueOp_at hea).trans (if_pos hlt)

/-- A value operation whose operand word does not exist raises at the effective address. -/
theorem valueOp_invalid {f : Word → Word → Word} {mode : AddrMode} {p ea : Word} {s : State}
    (hea : effectiveAddress mode p s = .ok ea) (hge : 64 ≤ ea.toNat) :
    valueOp f mode p s = raise { addr := ea.toNat, kind := .dataRead } s :=
  (valueOp_at hea).trans (if_neg (Nat.not_lt.mpr hge))

/-- What a value operation does after its fetch, at a known effective address. -/
theorem valueOp_after {f : Word → Word → Word} {mode : AddrMode} {p ea : Word} (s : State) (op : Word)
    (hea : effectiveAddress mode p { s with ir := op } = .ok ea) :
    ∃ t, valueOp f mode p { s with ir := op } = .next t ∧
      (ea.toNat < 64 → t = { s with ir := op, ac := f s.ac (s.mem.read ea.toNat), pc := s.pc + 2 }) ∧
      (64 ≤ ea.toNat → t = s.raised op ea.toNat .dataRead) := by
  obtain hlt | hge := Nat.lt_or_ge ea.toNat 64
  · exact ⟨_, valueOp_valid hea hlt, fun _ => rfl, fun hge => absurd hlt (Nat.not_lt.mpr hge)⟩
  · exact ⟨_, valueOp_invalid hea hge, fun hlt => absurd hlt (Nat.not_lt.mpr hge), fun _ => rfl⟩

/-- An instruction whose two forms are the value operation of `f` has the cycle of R100 to R103 with `f`. -/
theorem valueCycle_of_exec {f : Word → Word → Word} {o : OperandOp} {dir ind : Word}
    (hdir : decodeOpcode dir = .operand o false) (hind : decodeOpcode ind = .operand o true)
    (hexecDir : ∀ p s, exec (operandInstr o false p) s = valueOp f .direct p s)
    (hexecInd : ∀ p s, exec (operandInstr o true p) s = valueOp f .indirect p s) :
    ValueCycle dir ind f :=
  operandCycleOf_cycle (opn := valueOp f) hdir hind hexecDir hexecInd valueOp_error valueOp_after

/-- Settles O36: AND is the value operation of the conjunction. -/
theorem andCycle : Obligations.AndCycle :=
  valueCycle_of_exec (f := and8) (o := .and) rfl rfl exec_and exec_andI

/-- Settles O37: ADD is the value operation of the Arithmetic Unit's sum, which is the sum modulo 256. -/
theorem addCycle : Obligations.AddCycle := by
  have hsum : add8 = fun ac v => BitVec.ofNat 8 ((ac.toNat + v.toNat) % 256) := funext₂ add8_eq_ofNat
  unfold Obligations.AddCycle
  rw [← hsum]
  exact valueCycle_of_exec (o := .add) rfl rfl exec_add exec_addI

/-- Settles O38: SUB is the value operation of the Arithmetic Unit's difference, AC the minuend. -/
theorem subCycle : Obligations.SubCycle := by
  have hdiff : sub8 = fun ac v => BitVec.ofInt 8 (((ac.toNat : Int) - (v.toNat : Int)) % 256) :=
    funext₂ sub8_eq_ofInt
  unfold Obligations.SubCycle
  rw [← hdiff]
  exact valueCycle_of_exec (o := .sub) rfl rfl exec_sub exec_subI

/-! ### LDA -/

theorem valueCycle_lda : ValueCycle 0x04#8 0x84#8 fun _ v => v :=
  valueCycle_of_exec (o := .lda) rfl rfl exec_lda exec_ldaI

/-- An indirect LDA whose address field points at itself loads the field: pointer and operand are one word. -/
theorem step_ldaI_of_field_at_itself {s : State} (h : s.Fetches 0x84#8) (hpc : s.pc < 63)
    (hself : s.field.toNat = s.pc + 1) : ∃ t, step s = .next t ∧ t.ac = s.field := by
  have hlt : s.field.toNat < 64 := by omega
  have hread : s.mem.read s.field.toNat = s.field := by rw [hself]; rfl
  obtain ⟨-, -, -, hindirect⟩ := valueCycle_lda
  obtain ⟨t, ht, hdone, -⟩ := hindirect s h hpc hlt
  rw [hread] at hdone
  exact ⟨t, ht, by rw [hdone hlt, hread]⟩

/-- LDA from the address STA wrote gives the AC that was stored, whatever AC held between (R103). -/
theorem exec_lda_after_sta {p : Word} (x : Word) (s : State) (hlt : p.toNat < 64) :
    ∃ t, exec (.sta p) s = .next t ∧ ∃ u, exec (.lda p) { t with ac := x } = .next u ∧ u.ac = s.ac := by
  have hsta : exec (.sta p) s = .next { s with mem := s.mem.write p.toNat s.ac, pc := s.pc + 2 } := by
    rw [exec_sta, storeOp_at rfl, if_pos hlt]
  exact ⟨_, hsta, _, (exec_lda p _).trans (valueOp_valid rfl hlt), by simp⟩

/-- Settles O39: the cycle of the value operation that keeps the operand, and its two uses. -/
theorem ldaCycle : Obligations.LdaCycle :=
  ⟨valueCycle_lda, fun _ => step_ldaI_of_field_at_itself, fun _ x s => exec_lda_after_sta x s⟩

/-! ### Each instruction completes -/

/-- Settles O48: each of the eight is a value operation whose operand word exists. -/
theorem valueOpsComplete : Obligations.ValueOpsComplete := by
  refine ⟨?direct, ?indirect⟩
  case direct =>
    intro p s hp v
    rw [← add8_eq_add, ← sub8_eq_sub, exec_and, exec_add, exec_sub, exec_lda]
    exact ⟨valueOp_valid rfl hp, valueOp_valid rfl hp, valueOp_valid rfl hp, valueOp_valid rfl hp⟩
  case indirect =>
    intro p s hp hv v
    have hea := effectiveAddress_indirect_valid s hp
    rw [← add8_eq_add, ← sub8_eq_sub, exec_andI, exec_addI, exec_subI, exec_ldaI]
    exact ⟨valueOp_valid hea hv, valueOp_valid hea hv, valueOp_valid hea hv, valueOp_valid hea hv⟩

end Sys2Proof.Machine

end

/-! PROOFS, the address-consuming instructions (spec/42_address_ops.md): each operation at an effective address
once, with its completion; then the whole cycles, first by their next state and then by what follows from it in a
Running core. -/

section

namespace Sys2Proof.Machine

/-! ### From a cycle's next state to what follows from it -/

/-- What a cycle ends in may be weakened by what follows from it in a state that fetches the opcode. -/
theorem operandCycle_imp {dir ind : Word} {after after' : State → Word → Word → State → Prop}
    (h : OperandCycle dir ind after)
    (himp : ∀ {s op ea t}, s.Fetches op → after s op ea t → after' s op ea t) :
    OperandCycle dir ind after' := by
  obtain ⟨hnoField, hdirect, hbadPointer, hindirect⟩ := h
  refine ⟨hnoField, fun s hs hpc => ?direct, hbadPointer, fun s hs hpc hp => ?indirect⟩
  case direct =>
    obtain ⟨t, hstep, hafter⟩ := hdirect s hs hpc
    exact ⟨t, hstep, himp hs hafter⟩
  case indirect =>
    obtain ⟨t, hstep, hafter⟩ := hindirect s hs hpc hp
    exact ⟨t, hstep, himp hs hafter⟩

/-- A memory that is the old one after one write differs from it at that address alone. -/
theorem memDiffersAt_of_write {a : Nat} {v : Word} {s t : State} (h : t.mem = s.mem.write a v) :
    MemDiffersAt a v s t :=
  ⟨by simp [h], fun b hb => by simp [h, hb]⟩

/-! ### STA -/

/-- A store whose word exists completes: memory and PC change, nothing else. -/
theorem storeOp_valid {mode : AddrMode} {p ea : Word} {s : State}
    (hea : effectiveAddress mode p s = .ok ea) (hlt : ea.toNat < 64) :
    storeOp mode p s = .next { s with mem := s.mem.write ea.toNat s.ac, pc := s.pc + 2 } :=
  (storeOp_at hea).trans (if_pos hlt)

/-- A store whose word does not exist raises at the effective address. -/
theorem storeOp_invalid {mode : AddrMode} {p ea : Word} {s : State}
    (hea : effectiveAddress mode p s = .ok ea) (hge : 64 ≤ ea.toNat) :
    storeOp mode p s = raise { addr := ea.toNat, kind := .dataWrite } s :=
  (storeOp_at hea).trans (if_neg (Nat.not_lt.mpr hge))

/-- What a store does after its fetch, at a known effective address. -/
theorem storeOp_after {mode : AddrMode} {p ea : Word} (s : State) (op : Word)
    (hea : effectiveAddress mode p { s with ir := op } = .ok ea) :
    ∃ t, storeOp mode p { s with ir := op } = .next t ∧
      (ea.toNat < 64 → t = { s with ir := op, mem := s.mem.write ea.toNat s.ac, pc := s.pc + 2 }) ∧
      (64 ≤ ea.toNat → t = s.raised op ea.toNat .dataWrite) := by
  obtain hlt | hge := Nat.lt_or_ge ea.toNat 64
  · exact ⟨_, storeOp_valid hea hlt, fun _ => rfl, fun hge => absurd hlt (Nat.not_lt.mpr hge)⟩
  · exact ⟨_, storeOp_invalid hea hge, fun hlt => absurd hlt (Nat.not_lt.mpr hge), fun _ => rfl⟩

/-- The whole next state of STA's cycle, in range and out (R110). -/
theorem operandCycle_sta : OperandCycle 0x08#8 0x88#8 fun s op ea t =>
    (ea.toNat < 64 → t = { s with ir := op, mem := s.mem.write ea.toNat s.ac, pc := s.pc + 2 }) ∧
    (64 ≤ ea.toNat → t = s.raised op ea.toNat .dataWrite) :=
  operandCycleOf_cycle (o := .sta) rfl rfl exec_sta exec_staI storeOp_error storeOp_after

/-- Settles O40: the written word is read back by LDA, and by the next fetch where PC is its address. -/
theorem staCycle : Obligations.StaCycle := by
  unfold Obligations.StaCycle
  refine operandCycle_imp operandCycle_sta fun {s op ea t} hs ⟨hdone, hraised⟩ => ⟨fun hlt => ?stored, hraised⟩
  obtain rfl := hdone hlt
  have hread : (s.mem.write ea.toNat s.ac).read ea.toNat = s.ac := by simp
  refine ⟨memDiffersAt_of_write rfl, ⟨rfl, rfl, rfl⟩, rfl, rfl, fun hnext => ?nextFetch, fun x => ?reload⟩
  case nextFetch =>
    rw [hnext] at hlt hread ⊢
    exact exists_step_ir_eq ⟨hs.1, hlt, hread⟩
  case reload => exact ⟨_, (exec_lda ea _).trans (valueOp_valid rfl hlt), hread⟩

/-- STA's operation, in either form, where the word at the effective address exists. -/
theorem storeOp_completes {mode : AddrMode} {p ea : Word} {s : State}
    (hea : effectiveAddress mode p s = .ok ea) (hlt : ea.toNat < 64) :
    ∃ t, storeOp mode p s = .next t ∧ MemDiffersAt ea.toNat s.ac s t ∧ SameAcAndStatus s t ∧
      t.ir = s.ir ∧ t.pc = s.pc + 2 :=
  ⟨_, storeOp_valid hea hlt, memDiffersAt_of_write rfl, ⟨rfl, rfl, rfl⟩, rfl, rfl⟩

/-- Settles O49: both forms are the store. -/
theorem staCompletes : Obligations.StaCompletes := by
  intro p ea s
  rw [exec_sta, exec_staI]
  exact ⟨storeOp_completes, storeOp_completes⟩

/-! ### BUN -/

/-- The whole next state of BUN's cycle; the target is not checked (R111). -/
theorem operandCycle_bun : OperandCycle 0x10#8 0x90#8 fun s op ea t => t = { s with ir := op, pc := ea.toNat } :=
  operandCycleOf_cycle (o := .bun) rfl rfl exec_bun exec_bunI branchOp_error
    fun _ _ hea => ⟨_, branchOp_at hea, rfl⟩

/-- Settles O41: the core still runs after the branch, so its next cycle fetches at the target or raises there. -/
theorem bunCycle : Obligations.BunCycle := by
  unfold Obligations.BunCycle
  refine operandCycle_imp operandCycle_bun fun {s op ea t} hs ht => ?_
  obtain rfl := ht
  exact ⟨rfl, fun hlt => exists_step_ir_eq ⟨hs.1, hlt, rfl⟩,
    fetchPastMemoryFaults { s with ir := op, pc := ea.toNat } hs.1⟩

/-- Settles O50: the direct target is the field, the indirect one the word of a pointer that exists. -/
theorem bunCompletes : Obligations.BunCompletes := by
  intro p s
  rw [exec_bun, exec_bunI]
  exact ⟨branchOp_at rfl, fun hp => branchOp_at (effectiveAddress_indirect_valid s hp)⟩

/-! ### ISZ -/

/-- Settles O42: the cycle is that of every configuration at the default one, and the advances are those of the
increment-and-skip in a state whose IR is written already. -/
theorem iszCycle : Obligations.IszCycle := by
  refine ⟨?cycle, fun cfg mode p ea s hea hlt => ?advances⟩
  case cycle =>
    obtain ⟨hisz, -⟩ := iszAndReservedAtEveryConfiguration Config.default
    rwa [stepAt_default] at hisz
  case advances =>
    obtain ⟨t, ht, hdone, -⟩ := incrementSkipOp_after cfg s s.ir hea
    obtain ⟨hmem, -, -, hpc⟩ := hdone hlt
    exact ⟨t, ht, hmem, hpc⟩

/-- The increment is zero exactly where it wraps. -/
theorem add_one_eq_zero_iff (v : Word) : v + 1#8 = 0x00#8 ↔ v = 0xFF#8 := eq_neg_iff_add_eq_zero.symm

/-- ISZ's operation, in either form, where the word at the effective address exists. -/
theorem incrementSkipOp_completes {mode : AddrMode} {p ea : Word} {s : State}
    (hea : effectiveAddress mode p s = .ok ea) (hlt : ea.toNat < 64) :
    ∃ t, incrementSkipOp Config.default mode p s = .next t ∧
      MemDiffersAt ea.toNat (s.mem.read ea.toNat + 1#8) s t ∧ SameAcAndStatus s t ∧ t.ir = s.ir ∧
      t.pc = s.pc + if s.mem.read ea.toNat = 0xFF#8 then 3 else 2 := by
  have hrun := (incrementSkipOp_at (cfg := Config.default) hea).trans (if_pos hlt)
  rw [add8_eq_add, iszNetAdvance_default] at hrun
  simp only [add_one_eq_zero_iff] at hrun
  exact ⟨_, hrun, memDiffersAt_of_write rfl, ⟨rfl, rfl, rfl⟩, rfl, rfl⟩

/-- Settles O51: both forms are the increment-and-skip at the default advances. -/
theorem iszCompletes : Obligations.IszCompletes := by
  intro p ea s
  rw [exec_isz, exec_iszI]
  exact ⟨incrementSkipOp_completes, incrementSkipOp_completes⟩

end Sys2Proof.Machine

end

/-! PROOFS, the one-word instructions (spec/43_no_operand_ops.md): the operation of each said once by its next
state, then the whole cycles from the fetch. -/

section

namespace Sys2Proof.Machine

/-! ### Each instruction completes -/

theorem exec_cla (s : State) : exec .cla s = .next { s with ac := 0x00#8, pc := s.pc + 1 } := rfl
theorem exec_cma (s : State) : exec .cma s = .next { s with ac := not8 s.ac, pc := s.pc + 1 } := rfl
theorem exec_hlt (s : State) : exec .hlt s = .next { s with status := .halted } := rfl
theorem exec_undef (op : Word) (s : State) : exec (.undef op) s = .next { s with pc := s.pc + 1 } := rfl

/-- At `RESERVED_OP_MODE = nop` a reserved code is a one-word no-op (R123 to R125). -/
theorem reservedOp_of_nop {cfg : Config} (op : Word) (s : State) (h : cfg.reservedOpMode = .nop) :
    reservedOp cfg op s = .next { s with pc := s.pc + 1 } := by
  rw [reservedOp, h]
  rfl

/-- At `RESERVED_OP_MODE = refuse` a reserved code has no meaning (R8). -/
theorem reservedOp_of_refuse {cfg : Config} (op : Word) (s : State) (h : cfg.reservedOpMode = .refuse) :
    reservedOp cfg op s = .refused (.reservedOpcode op) := by
  rw [reservedOp, h]

theorem exec_asl (s : State) : exec .asl s = .next { s with pc := s.pc + 1 } :=
  reservedOp_of_nop (cfg := Config.default) 0x44#8 s rfl
theorem exec_asr (s : State) : exec .asr s = .next { s with pc := s.pc + 1 } :=
  reservedOp_of_nop (cfg := Config.default) 0x48#8 s rfl
theorem exec_inc (s : State) : exec .inc s = .next { s with pc := s.pc + 1 } :=
  reservedOp_of_nop (cfg := Config.default) 0x50#8 s rfl

/-- Settles O52: the operation of each, with CMA's complement as the library's. -/
theorem oneWordInstructionsComplete : Obligations.OneWordInstructionsComplete := by
  intro op s
  rw [← not8_eq_not]
  exact ⟨exec_cla s, exec_cma s, exec_hlt s, exec_asl s, exec_asr s, exec_inc s, exec_undef op s⟩

/-! ### CLA, CMA and HLT from their fetch -/

/-- Settles O43: the operation after its fetch; 0xC1 is none of the defined codes. -/
theorem claCycle : Obligations.ClaCycle :=
  ⟨fun _ hs => (step_oneWord hs rfl).trans (exec_cla _), fun _ => step_of_undefined (by decide)⟩

/-- The whole cycle of CMA (R121). -/
theorem step_cma {s : State} (h : s.Fetches 0x42#8) :
    step s = .next { s with ir := 0x42#8, ac := not8 s.ac, pc := s.pc + 1 } :=
  (step_oneWord h rfl).trans (exec_cma _)

@[simp] theorem not8_not8 (a : Word) : not8 (not8 a) = a := by
  rw [not8_eq_not, not8_eq_not, BitVec.not_not]

/-- Settles O44: the second CMA complements the complement. -/
theorem cmaCycle : Obligations.CmaCycle := by
  refine ⟨fun s => step_cma, fun _ => step_of_undefined (by decide), fun s hs hpc hnext => ?twice⟩
  have hnextFetch : State.Fetches { s with ir := 0x42#8, ac := not8 s.ac, pc := s.pc + 1 } 0x42#8 :=
    ⟨hs.1, Nat.succ_lt_succ hpc, hnext⟩
  exact ⟨_, step_cma hs, _, step_cma hnextFetch, not8_not8 s.ac, rfl⟩

/-- Settles O45: the cycle leaves the core Halted, and a Halted core stays as it is. -/
theorem hltCycle : Obligations.HltCycle := by
  refine ⟨fun s hs => ?halts, fun _ => step_of_undefined (by decide)⟩
  exact ⟨_, (step_oneWord hs rfl).trans (exec_hlt _), rfl, step_of_not_running (by simp)⟩

/-! ### The reserved codes and the undefined opcodes from their fetch -/

/-- Settles O46: the cycle is that of every configuration at the default one, whose mode is nop. -/
theorem reservedCycle : Obligations.ReservedCycle := by
  refine ⟨fun s op hop hs => ?cycle, fun _ s op _ => ⟨reservedOp_of_nop op s, reservedOp_of_refuse op s⟩⟩
  rw [← stepAt_default, stepAt_reserved hop hs]
  exact reservedOp_of_nop op _ rfl

/-- The cycle that begins at the first address past memory (R137). -/
theorem step_at_64 {s : State} (hs : s.status = .running) (hpc : s.pc = 64) :
    step s = .next (s.raised s.ir 64 .fetch) := by
  rw [fetchPastMemoryFaults s hs hpc.ge, ← hpc]
  rfl

/-- Settles O47: the codes listed are the 20 defined ones, and the core still runs after the no-op. -/
theorem undefCycle : Obligations.UndefCycle := by
  intro s op hop hs
  have hundef : op ∉ definedCodes := fun hmem => hop (List.Perm.subset (by decide) hmem)
  exact ⟨_, step_of_undefined hundef hs, rfl, fun h63 => step_at_64 hs.1 (congrArg (· + 1) h63)⟩

end Sys2Proof.Machine

end

/-! PROOFS, exceptions (spec/60_exceptions.md): the state an OutOfRange leaves, and where the operations with an
address field raise one, said once over the operation and its operand form. -/

section

namespace Sys2Proof.Machine

/-! ### OutOfRange is precise -/

/-- Settles O12: a cycle that completes is not Faulted, and one that raises is in the state of R137. -/
theorem outOfRangeIsPrecise : Obligations.OutOfRangeIsPrecise := by
  intro s t hs h hfaulted
  obtain ⟨e, hr, ht⟩ | hc := raises_or_completes hs h
  · exact ⟨e, hr.firstBadAccess_eq, ht⟩
  · exact absurd hfaulted (hc.not_faulted hs)

/-! ### Where the operations with an address field raise -/

/-- Raising keeps IR, so the state is the one `raised` names with the IR there was (R137). -/
theorem raise_eq_raised (a : Nat) (k : AccessKind) (s : State) :
    raise { addr := a, kind := k } s = .next (s.raised s.ir a k) := raise_after_fetch s s.ir a k

/-- The operand form of the indirect flag (R61, R65). -/
def flagMode : Bool → AddrMode
  | false => .direct
  | true => .indirect

/-- The shared operation behind each operation with an address field, in either operand form. -/
def operandRun : OperandOp → AddrMode → Word → State → Host.Outcome State Fault Refusal
  | .and => valueOp and8
  | .add => valueOp add8
  | .sub => valueOp sub8
  | .lda => valueOp fun _ v => v
  | .sta => storeOp
  | .bun => branchOp
  | .isz => incrementSkipOp Config.default

theorem exec_operandInstr (o : OperandOp) (indirect : Bool) (p : Word) (s : State) :
    exec (operandInstr o indirect p) s = operandRun o (flagMode indirect) p s := by
  cases o <;> cases indirect <;> rfl

/-- An increment-and-skip whose word does not exist raises at its read (R112). -/
theorem incrementSkipOp_invalid {cfg : Config} {mode : AddrMode} {p ea : Word} {s : State}
    (hea : effectiveAddress mode p s = .ok ea) (hge : 64 ≤ ea.toNat) :
    incrementSkipOp cfg mode p s = raise { addr := ea.toNat, kind := .dataRead } s :=
  (incrementSkipOp_at hea).trans (if_neg (Nat.not_lt.mpr hge))

/-- Every operation with an address field raises what the Addressing Resolver raises. -/
theorem operandRun_error {o : OperandOp} {mode : AddrMode} {p : Word} {s : State} {e : FaultRecord}
    (he : effectiveAddress mode p s = .error e) : operandRun o mode p s = raise e s := by
  cases o with
  | and | add | sub => exact valueOp_error he
  | lda => exact valueOp_error (f := fun _ v => v) he
  | sta => exact storeOp_error he
  | bun => exact branchOp_error he
  | isz => exact incrementSkipOp_error he

/-- The operations that read the word at their effective address (R44). -/
abbrev readingOps : List OperandOp := [.and, .add, .sub, .lda, .isz]

theorem operandRun_read_invalid {o : OperandOp} {mode : AddrMode} {p ea : Word} {s : State} (ho : o ∈ readingOps)
    (hea : effectiveAddress mode p s = .ok ea) (hge : 64 ≤ ea.toNat) :
    operandRun o mode p s = raise { addr := ea.toNat, kind := .dataRead } s := by
  cases o with
  | and | add | sub => exact valueOp_invalid hea hge
  | lda => exact valueOp_invalid (f := fun _ v => v) hea hge
  | isz => exact incrementSkipOp_invalid hea hge
  | sta | bun => simp at ho

/-- An instruction that reads at its effective address raises DataRead there where no such word exists. -/
theorem exec_read_invalid {indirect : Bool} {p ea : Word} {s : State}
    (hea : effectiveAddress (flagMode indirect) p s = .ok ea) (hge : 64 ≤ ea.toNat) :
    ∀ i ∈ readingOps.map (operandInstr · indirect p), exec i s = .next (s.raised s.ir ea.toNat .dataRead) := by
  refine List.forall_mem_map.mpr fun o ho => ?_
  rw [exec_operandInstr, operandRun_read_invalid ho hea hge, raise_eq_raised]

/-- The indirect form of every operation raises PointerRead at a pointer that does not exist. -/
theorem exec_indirect_invalid {p : Word} {s : State} (o : OperandOp) (hge : 64 ≤ p.toNat) :
    exec (operandInstr o true p) s = .next (s.raised s.ir p.toNat .pointerRead) := by
  have he : effectiveAddress (flagMode true) p s = .error { addr := p.toNat, kind := .pointerRead } :=
    effectiveAddress_indirect_invalid s hge
  rw [exec_operandInstr, operandRun_error he, raise_eq_raised]

/-- Settles O53: the direct effective address is the field, the indirect one the word of a pointer that exists. -/
theorem operandOpsRaiseOutOfRange : Obligations.OperandOpsRaiseOutOfRange := by
  refine fun p s => ⟨fun hp => ⟨?directRead, ?directWrite, ?pointer⟩, fun hp hv => ?indirect⟩
  case directRead => exact exec_read_invalid (indirect := false) rfl hp
  case directWrite => exact (exec_sta p s).trans (storeOp_invalid rfl hp)
  case pointer =>
    have hall : ∀ i ∈ [OperandOp.and, .add, .sub, .lda, .sta, .bun, .isz].map (operandInstr · true p),
        exec i s = .next (s.raised s.ir p.toNat .pointerRead) :=
      List.forall_mem_map.mpr fun o _ => exec_indirect_invalid o hp
    exact hall
  case indirect =>
    have hea := effectiveAddress_indirect_valid s hp
    exact ⟨exec_read_invalid (indirect := true) hea hv, (exec_staI p s).trans (storeOp_invalid hea hv)⟩

end Sys2Proof.Machine

end

/-! PROOFS, reset and hazards (spec/70_reset_and_hazards.md): the start state after a load and a reset, and where
ISZ's skip lands. -/

section

namespace Sys2Proof.Machine

/-! ### Load, then reset -/

/-- Settles O25: the load keeps the run state, so the reset is taken too, and it keeps the loaded memory. -/
theorem loadThenResetIsBoot : Obligations.LoadThenResetIsBoot := by
  intro s image hs hlen
  have hload : hostLoad image s = some { s with mem := Memory.ofWords 0 image } :=
    hostLoad_eq_some.mpr ⟨hs, hlen, rfl⟩
  exact ⟨_, hload, rfl, hostReset_of_not_running hs⟩

/-! ### The skip -/

/-- The whole cycle of an ISZ that skips, in either form: the word 0xFF wraps to zero and PC advances by 3. -/
theorem step_isz_skip {s : State} {op ea : Word} {mode : AddrMode} (h : s.Fetches op)
    (hop : op = 0x20#8 ∧ mode = .direct ∨ op = 0xA0#8 ∧ mode = .indirect) (hpc : s.pc < 63)
    (hea : effectiveAddress mode s.field s = .ok ea) (hlt : ea.toNat < 64) (hff : s.mem.read ea.toNat = 0xFF#8) :
    ∃ t, step s = .next t ∧ MemDiffersAt ea.toNat 0x00#8 s t ∧ SameAcAndStatus s t ∧ t.ir = op ∧
      t.pc = s.pc + 3 := by
  have hexec : step s = incrementSkipOp Config.default mode s.field { s with ir := op } := by
    obtain ⟨rfl, rfl⟩ | ⟨rfl, rfl⟩ := hop
    · exact step_twoWord (o := .isz) (indirect := false) h rfl hpc
    · exact step_twoWord (o := .isz) (indirect := true) h rfl hpc
  obtain ⟨t, ht, hmem, hsame, hir, hpcNext⟩ := incrementSkipOp_completes (s := { s with ir := op }) hea hlt
  rw [hff] at hmem hpcNext
  exact ⟨t, hexec.trans ht, hmem, hsame, hir, hpcNext⟩

/-- Settles O57: the skip leaves the core Running at PC+3, where the word is the old one because ISZ wrote
elsewhere, and the next step fetches it. -/
theorem iszSkipLandsOnTheThirdWord : Obligations.IszSkipLandsOnTheThirdWord := by
  intro s op ea hs hpc hop hlt hff hne
  obtain ⟨mode, hform, hea⟩ : ∃ mode, (op = 0x20#8 ∧ mode = .direct ∨ op = 0xA0#8 ∧ mode = .indirect) ∧
      effectiveAddress mode s.field s = .ok ea := by
    obtain ⟨hcode, hea⟩ | ⟨hcode, hea⟩ := hop
    · exact ⟨.direct, .inl ⟨hcode, rfl⟩, hea⟩
    · exact ⟨.indirect, .inr ⟨hcode, rfl⟩, hea⟩
  obtain ⟨t, ht, ⟨-, hframe⟩, ⟨-, hstatus, -⟩, -, htpc⟩ := step_isz_skip hs hform (by omega) hea hlt hff
  have hfetches : t.Fetches (s.mem.read (s.pc + 3)) :=
    ⟨hstatus.trans hs.1, by rwa [htpc], by rw [htpc, hframe _ hne.symm]⟩
  exact ⟨t, ht, htpc, exists_step_ir_eq hfetches⟩

end Sys2Proof.Machine

end

/-! PROOFS, the model stops nowhere (spec/93_implementation_defined.md, end of part 1). -/

section

namespace Sys2Proof.Machine

/-- No instruction faults or refuses: each of the shapes of `exec_shape` answers a next state, and `CommutesWith`
carries that answer beside its non-interference. -/
theorem exists_exec (i : Instr) (s : State) : ∃ t, exec i s = .next t := by
  obtain ⟨t, ht, -⟩ := exec_commutes_ir id i s
  exact ⟨t, ht⟩

/-- Settles O15: every instruction answers a next state, and so does every cycle, whose failed fetch answers one
and whose completed fetch runs an instruction. -/
theorem everyStepAnswersNext : Obligations.EveryStepAnswersNext := ⟨exists_exec, exists_step⟩

end Sys2Proof.Machine

end
